-- ==== Sys2Proof/Word.lean ====
section
/-! DEFINITION. The word types of JRS-CORE. Bit 0 of every value is its least significant bit
(spec/00_scope.md R15). -/

namespace Sys2Proof

/-- A byte: PBUF, W and NVB cells, register numbers, byte operands (spec/20_memory.md R61). -/
abbrev Byte := BitVec 8

/-- A 16-bit value: `CRC`, `WC`, `NVC`, counts, addresses and indices (spec/92_eei_decisions.md D2). -/
abbrev Half := BitVec 16

/-- A 32-bit value: `FREQ` and the result field of a response (spec/30_encoding.md R91). -/
abbrev Word := BitVec 32

/-- A command word or a response word: 40 bits (spec/30_encoding.md R90, R91). -/
abbrev Word40 := BitVec 40

end Sys2Proof
end

