-- ==== Sys2Proof/Syntax.lean ====
section
/-! DEFINITION. The twenty commands of JRS-CORE as syntax: one constructor per row of
spec/opcode_table.json (spec/30_encoding.md R95), operands in the order of R99. -/

namespace Sys2Proof

/-- A command. The two coordinates of format P are signed integers in hundredths of a degree
(R93); every other operand is the unsigned field of R92. -/
inductive Instr where
  /-- `NOP`, opcode 0x00, format Z. -/
  | nop
  /-- `CRC_RESET`, opcode 0x01, format Z. -/
  | crcReset
  /-- `EMIT_BYTE v, f`, opcode 0x02, format BF; `f` is the flag-mode bit. -/
  | emitByte (v : Byte) (f : Bool)
  /-- `EMIT_FLAG c`, opcode 0x03, format C. -/
  | emitFlag (c : Half)
  /-- `EMIT_STRING a, l`, opcode 0x04, format S. -/
  | emitString (a l : Half)
  /-- `EMIT_CRC`, opcode 0x05, format Z. -/
  | emitCrc
  /-- `TM_MARK`, opcode 0x10, format Z. -/
  | tmMark
  /-- `TM_SPACE`, opcode 0x11, format Z. -/
  | tmSpace
  /-- `GS_CLASSIFY lat, lon`, opcode 0x20, format P. -/
  | gsClassify (lat lon : Int)
  /-- `TC_GET`, opcode 0x30, format Z. -/
  | tcGet
  /-- `TC_PUSH v`, opcode 0x31, format B. -/
  | tcPush (v : Byte)
  /-- `TC_STORE`, opcode 0x32, format Z. -/
  | tcStore
  /-- `TC_PUSHPAIR p, q`, opcode 0x33, format Q. -/
  | tcPushpair (p q : Byte)
  /-- `TC_RECORD lat, lon`, opcode 0x34, format P. -/
  | tcRecord (lat lon : Int)
  /-- `TC_READ c`, opcode 0x35, format C. -/
  | tcRead (c : Half)
  /-- `TC_EXPORT a`, opcode 0x36, format A. -/
  | tcExport (a : Half)
  /-- `RDREG n`, opcode 0x40, format B. -/
  | rdreg (n : Byte)
  /-- `WRREG n, v`, opcode 0x41, format Q. -/
  | wrreg (n v : Byte)
  /-- `WRBUF a, v`, opcode 0x42, format AW. -/
  | wrbuf (a : Half) (v : Byte)
  /-- `RDBUF a`, opcode 0x43, format A. -/
  | rdbuf (a : Half)
deriving DecidableEq, Repr

end Sys2Proof
end

