-- ==== Sys2Proof/WellFormed.lean ====
section
/-! DEFINITION. Well-formed commands: the operand values an encoding can hold. Every field's width
is in its type, but for the two coordinates of format P, which are integers here and 16-bit two's
complement fields in the word (spec/30_encoding.md R92, R93). -/

namespace Sys2Proof

/-- An integer a signed 16-bit field can hold: -32768..32767 (spec/00_scope.md R15, `sext_16`). -/
def fitsSigned16 (x : Int) : Bool := decide (-32768 ≤ x) && decide (x ≤ 32767)

/-- The command's operands fit its encoding (R92, R93). -/
def Instr.wf : Instr → Bool
  | .nop => true
  | .crcReset => true
  | .emitByte _ _ => true
  | .emitFlag _ => true
  | .emitString _ _ => true
  | .emitCrc => true
  | .tmMark => true
  | .tmSpace => true
  | .gsClassify lat lon => fitsSigned16 lat && fitsSigned16 lon
  | .tcGet => true
  | .tcPush _ => true
  | .tcStore => true
  | .tcPushpair _ _ => true
  | .tcRecord lat lon => fitsSigned16 lat && fitsSigned16 lon
  | .tcRead _ => true
  | .tcExport _ => true
  | .rdreg _ => true
  | .wrreg _ _ => true
  | .wrbuf _ _ => true
  | .rdbuf _ => true

end Sys2Proof
end

