-- ==== Sys2Proof/Decode.lean ====
section
/-! DEFINITION. Command words to commands and back (spec/30_encoding.md R90 to R97). Decoding is
total: every 40-bit word is exactly one command or none (R96). -/

namespace Sys2Proof

/-! ### Decoding -/

/-- Format Z: all 32 operand bits reserved (R92). -/
def fmtZ (x : Word) (i : Instr) : Option Instr :=
  if x = 0#32 then some i else none

/-- Format BF: `v` = bits 7:0, `f` = bit 8, bits 31:9 reserved (R92). -/
def fmtBF (x : Word) (k : Byte → Bool → Instr) : Option Instr :=
  if x.extractLsb' 9 23 = 0#23 then some (k (x.extractLsb' 0 8) (x.getLsbD 8)) else none

/-- Format B: `v` = bits 7:0, bits 31:8 reserved (R92). -/
def fmtB (x : Word) (k : Byte → Instr) : Option Instr :=
  if x.extractLsb' 8 24 = 0#24 then some (k (x.extractLsb' 0 8)) else none

/-- Format C: `c` = bits 15:0, bits 31:16 reserved (R92). -/
def fmtC (x : Word) (k : Half → Instr) : Option Instr :=
  if x.extractLsb' 16 16 = 0#16 then some (k (x.extractLsb' 0 16)) else none

/-- Format S: `a` = bits 31:16, `l` = bits 15:0, no reserved bit (R92). -/
def fmtS (x : Word) (k : Half → Half → Instr) : Option Instr :=
  some (k (x.extractLsb' 16 16) (x.extractLsb' 0 16))

/-- Format P: `lat` = sext of bits 31:16, `lon` = sext of bits 15:0, no reserved bit (R92, R93). -/
def fmtP (x : Word) (k : Int → Int → Instr) : Option Instr :=
  some (k (x.extractLsb' 16 16).toInt (x.extractLsb' 0 16).toInt)

/-- Format Q: `p` = bits 15:8, `q` = bits 7:0, bits 31:16 reserved (R92). -/
def fmtQ (x : Word) (k : Byte → Byte → Instr) : Option Instr :=
  if x.extractLsb' 16 16 = 0#16 then some (k (x.extractLsb' 8 8) (x.extractLsb' 0 8)) else none

/-- Format A: `a` = bits 31:16, bits 15:0 reserved (R92). -/
def fmtA (x : Word) (k : Half → Instr) : Option Instr :=
  if x.extractLsb' 0 16 = 0#16 then some (k (x.extractLsb' 16 16)) else none

/-- Format AW: `a` = bits 31:16, `v` = bits 7:0, bits 15:8 reserved (R92). -/
def fmtAW (x : Word) (k : Half → Byte → Instr) : Option Instr :=
  if x.extractLsb' 8 8 = 0#8 then some (k (x.extractLsb' 16 16) (x.extractLsb' 0 8)) else none

/-- The operand field `x` read under the opcode `op` (R94, R95). -/
def decodeFields (op : Nat) (x : Word) : Option Instr :=
  match op with
  | 0x00 => fmtZ x .nop
  | 0x01 => fmtZ x .crcReset
  | 0x02 => fmtBF x .emitByte
  | 0x03 => fmtC x .emitFlag
  | 0x04 => fmtS x .emitString
  | 0x05 => fmtZ x .emitCrc
  | 0x10 => fmtZ x .tmMark
  | 0x11 => fmtZ x .tmSpace
  | 0x20 => fmtP x .gsClassify
  | 0x30 => fmtZ x .tcGet
  | 0x31 => fmtB x .tcPush
  | 0x32 => fmtZ x .tcStore
  | 0x33 => fmtQ x .tcPushpair
  | 0x34 => fmtP x .tcRecord
  | 0x35 => fmtC x .tcRead
  | 0x36 => fmtA x .tcExport
  | 0x40 => fmtB x .rdreg
  | 0x41 => fmtQ x .wrreg
  | 0x42 => fmtAW x .wrbuf
  | 0x43 => fmtA x .rdbuf
  | _ => none

/-- The command a word stands for, or `none` for an illegal word (R90, R95, R96). -/
def decode (w : Word40) : Option Instr :=
  decodeFields (w.extractLsb' 32 8).toNat (w.extractLsb' 0 32)

/-! ### Encoding -/

/-- The opcode byte of a command (R95). -/
def Instr.opcode : Instr → Byte
  | .nop => 0x00#8
  | .crcReset => 0x01#8
  | .emitByte _ _ => 0x02#8
  | .emitFlag _ => 0x03#8
  | .emitString _ _ => 0x04#8
  | .emitCrc => 0x05#8
  | .tmMark => 0x10#8
  | .tmSpace => 0x11#8
  | .gsClassify _ _ => 0x20#8
  | .tcGet => 0x30#8
  | .tcPush _ => 0x31#8
  | .tcStore => 0x32#8
  | .tcPushpair _ _ => 0x33#8
  | .tcRecord _ _ => 0x34#8
  | .tcRead _ => 0x35#8
  | .tcExport _ => 0x36#8
  | .rdreg _ => 0x40#8
  | .wrreg _ _ => 0x41#8
  | .wrbuf _ _ => 0x42#8
  | .rdbuf _ => 0x43#8

/-- A signed coordinate as a 16-bit two's complement field (R93). -/
def coordField (x : Int) : Half := BitVec.ofInt 16 x

/-- A field of an operand word: `x` with its bit 0 at bit `pos`, zeros around it (R92). -/
def fieldAt (pos : Nat) (n : Nat) (x : BitVec n) : Word := x.setWidth 32 <<< pos

/-- The operand field of a command, reserved bits zero (R92). -/
def Instr.operands : Instr → Word
  | .nop | .crcReset | .emitCrc | .tmMark | .tmSpace | .tcGet | .tcStore => 0#32
  | .emitByte v f => fieldAt 8 1 (BitVec.ofBool f) ||| fieldAt 0 8 v
  | .emitFlag c | .tcRead c => fieldAt 0 16 c
  | .emitString a l => fieldAt 16 16 a ||| fieldAt 0 16 l
  | .gsClassify lat lon | .tcRecord lat lon =>
    fieldAt 16 16 (coordField lat) ||| fieldAt 0 16 (coordField lon)
  | .tcPush v | .rdreg v => fieldAt 0 8 v
  | .tcPushpair p q | .wrreg p q => fieldAt 8 8 p ||| fieldAt 0 8 q
  | .tcExport a | .rdbuf a => fieldAt 16 16 a
  | .wrbuf a v => fieldAt 16 16 a ||| fieldAt 0 8 v

/-- The word of a well-formed command: the opcode in bits 39:32, the operand field in bits 31:0
(R90, R92, R95). -/
def encode (i : Instr) : Word40 := (i.opcode.setWidth 40 <<< (32 : Nat)) ||| i.operands.setWidth 40

/-! ### The opcode table -/

/-- One row of the table of R95: a word `w` is of the row when `w AND mask = pattern`. -/
structure OpcodeRow where
  mnemonic : String
  pattern  : Word40
  mask     : Word40
deriving DecidableEq, Repr

/-- The row of a command in R95. -/
def Instr.row : Instr → OpcodeRow
  | .nop => ⟨"NOP", 0x0000000000#40, 0xFFFFFFFFFF#40⟩
  | .crcReset => ⟨"CRC_RESET", 0x0100000000#40, 0xFFFFFFFFFF#40⟩
  | .emitByte _ _ => ⟨"EMIT_BYTE", 0x0200000000#40, 0xFFFFFFFE00#40⟩
  | .emitFlag _ => ⟨"EMIT_FLAG", 0x0300000000#40, 0xFFFFFF0000#40⟩
  | .emitString _ _ => ⟨"EMIT_STRING", 0x0400000000#40, 0xFF00000000#40⟩
  | .emitCrc => ⟨"EMIT_CRC", 0x0500000000#40, 0xFFFFFFFFFF#40⟩
  | .tmMark => ⟨"TM_MARK", 0x1000000000#40, 0xFFFFFFFFFF#40⟩
  | .tmSpace => ⟨"TM_SPACE", 0x1100000000#40, 0xFFFFFFFFFF#40⟩
  | .gsClassify _ _ => ⟨"GS_CLASSIFY", 0x2000000000#40, 0xFF00000000#40⟩
  | .tcGet => ⟨"TC_GET", 0x3000000000#40, 0xFFFFFFFFFF#40⟩
  | .tcPush _ => ⟨"TC_PUSH", 0x3100000000#40, 0xFFFFFFFF00#40⟩
  | .tcStore => ⟨"TC_STORE", 0x3200000000#40, 0xFFFFFFFFFF#40⟩
  | .tcPushpair _ _ => ⟨"TC_PUSHPAIR", 0x3300000000#40, 0xFFFFFF0000#40⟩
  | .tcRecord _ _ => ⟨"TC_RECORD", 0x3400000000#40, 0xFF00000000#40⟩
  | .tcRead _ => ⟨"TC_READ", 0x3500000000#40, 0xFFFFFF0000#40⟩
  | .tcExport _ => ⟨"TC_EXPORT", 0x3600000000#40, 0xFF0000FFFF#40⟩
  | .rdreg _ => ⟨"RDREG", 0x4000000000#40, 0xFFFFFFFF00#40⟩
  | .wrreg _ _ => ⟨"WRREG", 0x4100000000#40, 0xFFFFFF0000#40⟩
  | .wrbuf _ _ => ⟨"WRBUF", 0x4200000000#40, 0xFF0000FF00#40⟩
  | .rdbuf _ => ⟨"RDBUF", 0x4300000000#40, 0xFF0000FFFF#40⟩

/-- One command of each row, in the order of the table. -/
def rowExamples : List Instr :=
  [.nop, .crcReset, .emitByte 0 false, .emitFlag 0, .emitString 0 0, .emitCrc, .tmMark, .tmSpace,
   .gsClassify 0 0, .tcGet] ++
  [.tcPush 0, .tcStore, .tcPushpair 0 0, .tcRecord 0 0, .tcRead 0, .tcExport 0, .rdreg 0,
   .wrreg 0 0, .wrbuf 0 0, .rdbuf 0]

/-- The twenty rows of R95, in the order of the table. -/
def opcodeTable : List OpcodeRow := rowExamples.map Instr.row

/-- The word matches the row (R95). -/
def OpcodeRow.isMatch (r : OpcodeRow) (w : Word40) : Bool := w &&& r.mask == r.pattern

/-! ### The host's table words -/

/-- A table word of `nbits` bits as a 40-bit command word: bit 0 the least significant (R15, R90). -/
def tableWord (nbits w : Nat) : Word40 := BitVec.ofNat 40 (w % 2 ^ nbits)

/-- The command this decoder reads from a table word. -/
def decodeTableWord (nbits w : Nat) : Option Instr := decode (tableWord nbits w)

end Sys2Proof
end

