-- ==== Sys2Proof/Config.lean ====
section
/-! DEFINITION. What is fixed for one device: the constants of spec/00_scope.md R10 and the
parameters of R11 (spec/92_eei_decisions.md P1 to P11). The parameters are plain data carried by
the state, so that a statement about every state is a statement about every device. -/

namespace Sys2Proof

/-- A polygon vertex, (latitude, longitude) in hundredths of a degree (spec/44 R200). -/
structure Vertex where
  lat : Int
  lon : Int
deriving DecidableEq, Repr

/-- A region: its vertices in order and its transmit frequency in Hz (spec/44 R200).
`REGION[k].n` is the length of `vertices`. -/
structure Region where
  vertices : List Vertex
  freq     : Word
deriving DecidableEq, Repr

/-- The parameters of spec/00_scope.md R11. `regions` holds `REGION[0]` (checked first) to
`REGION[6]`. `tMark` and `tSpace` are durations in a unit the spec does not fix; no command reads
their values. -/
structure Config where
  cap         : Nat
  pbufSize    : Nat
  regions     : List Region
  maxv        : Nat
  defaultFreq : Word
  tMark       : Nat
  tSpace      : Nat
  radioLsbAddr : Nat
  trailDelim  : Byte
  leadinFlags : Nat
  trailFlags  : Nat
deriving DecidableEq, Repr

/-- A vertex of signed 16-bit coordinates (R200). -/
def Vertex.wf (v : Vertex) : Bool :=
  decide (-32768 ≤ v.lat) && decide (v.lat ≤ 32767) &&
  decide (-32768 ≤ v.lon) && decide (v.lon ≤ 32767)

/-- At most `MAXV` vertices, each of signed 16-bit coordinates (R11, R200). -/
def Region.wf (maxv : Nat) (r : Region) : Bool :=
  decide (r.vertices.length ≤ maxv) && r.vertices.all Vertex.wf

/-- The constraints of the table in R11, and `NREG` = 7 (R10). -/
def Config.wf (c : Config) : Bool :=
  decide (c.cap % 2 = 0) && decide (2 ≤ c.cap) && decide (c.cap ≤ 65534) &&
  decide (1 ≤ c.pbufSize) && decide (c.pbufSize ≤ 65536) &&
  decide (c.regions.length = 7) && c.regions.all (Region.wf c.maxv) &&
  decide (c.leadinFlags ≤ 65535) && decide (c.trailFlags ≤ 65535)

/-- `FLAG` (R10). -/
def flagByte : Byte := 0x7E#8
/-- `CRC_INIT` (R10). -/
def crcInit : Half := 0xFFFF#16
/-- `CRC_POLY`, reflected form (R10). -/
def crcPoly : Half := 0x8408#16
/-- The stuffing threshold (R10). -/
def stuffThreshold : Nat := 5
/-- `CTRL`, the control byte (R10). -/
def ctrlByte : Byte := 0x03#8
/-- `PID`, the protocol identifier byte (R10). -/
def pidByte : Byte := 0xF0#8
/-- The packet-type marker `!` of a position report (R10). -/
def markerPosition : Byte := 0x21#8
/-- The packet-type marker `>` of a status report (R10). -/
def markerStatus : Byte := 0x3E#8
/-- The quantisation offset (R10), also the offset of the trailer's digits (R230). -/
def quantOffset : Nat := 33
/-- The trailer divisor (R10). -/
def trailerDivisor : Nat := 90

/-- The example region table (spec/95_test_vectors.md V50). -/
def sampleRegions : List Region :=
  [ ⟨[⟨4700, 600⟩, ⟨4700, 1500⟩, ⟨5500, 1500⟩, ⟨5500, 600⟩], 144800000#32⟩,
    ⟨[⟨0, 2000⟩, ⟨0, 2600⟩, ⟨200, 2600⟩, ⟨200, 2200⟩, ⟨600, 2200⟩, ⟨600, 2000⟩], 144620000#32⟩,
    ⟨[⟨3000, -10000⟩, ⟨3000, -8000⟩, ⟨5000, -9000⟩], 145570000#32⟩,
    ⟨[⟨5000, 1000⟩, ⟨5000, 2000⟩, ⟨6000, 2000⟩, ⟨6000, 1000⟩], 144660000#32⟩,
    ⟨[], 144640000#32⟩,
    ⟨[⟨3500, -1100⟩, ⟨3500, 4000⟩, ⟨7100, 4000⟩, ⟨7100, -1100⟩], 144575000#32⟩,
    ⟨[⟨1500, -17000⟩, ⟨1500, -5000⟩, ⟨7200, -5000⟩, ⟨7200, -17000⟩], 144390000#32⟩ ]

/-- The configuration of `State.reset`: the values of the spec's own examples
(spec/95_test_vectors.md V40, V50, P3, V71). DESIGN CHOICE, unsafe (notes/assumptions/1.md). -/
def Config.sample : Config where
  cap := 8
  pbufSize := 256
  regions := sampleRegions
  maxv := 6
  defaultFreq := 144700000#32
  tMark := 2
  tSpace := 1
  radioLsbAddr := 0
  trailDelim := 0x7C#8
  leadinFlags := 2
  trailFlags := 1

end Sys2Proof
end

