-- ==== Sys2Proof/Machine/State.lean ====
section
/-! DEFINITION. The state of JRS-CORE as plain data (spec/10_state.md R20 to R40), and its value
right after reset (spec/70_reset_and_hazards.md R301). -/

namespace Sys2Proof.Machine

/-- One byte array (PBUF, W or NVB) as (index, byte) pairs in one canonical form: indices strictly
rising, no entry equal to what an unlisted index reads as (`Memory.wf` in Machine/Ops.lean). -/
abbrev Memory := List Host.Cell

/-- A symbol: one tone period (spec/00_scope.md R17, spec/10_state.md R40). -/
inductive Symbol where
  /-- The low tone (R153). -/
  | mark
  /-- The high tone (R154). -/
  | space
deriving DecidableEq, Repr

/-- The half of a square wave a phase holds (spec/41_tone_modulator.md R152). -/
inductive PhaseHalf where
  | hi
  | lo
deriving DecidableEq, Repr

/-- The symbolic delay of a phase (R152). -/
inductive Delay where
  | tMark
  | tSpace
deriving DecidableEq, Repr

/-- One phase event of `TXTRACE` (spec/10_state.md R40). -/
inductive PhaseEvent where
  /-- Direct strategy: `tx_out` driven to `level` and held for `d`. -/
  | drive (level : BitVec 1) (d : Delay)
  /-- Fast-carrier strategy: one radio register write, then the delay `d`. -/
  | regWrite (addr : Nat) (byte : Byte) (d : Delay)
deriving DecidableEq, Repr

/-- The eight faults a command can raise (spec/60_exceptions.md R271). Each ends the command with a
response; none stops the block (R275). -/
inductive FaultCode where
  /-- 0x01: the word matches no row. -/
  | illegalCmd
  /-- 0x02: a PBUF access not wholly inside the buffer. -/
  | pbufRange
  /-- 0x03: a register number or value the register map refuses. -/
  | regAccess
  /-- 0x04: a trail index not below `CAP`. -/
  | tcIndex
  /-- 0x05: a push would take `WC` past 0xFFFF. -/
  | tcCountOverflow
  /-- 0x06: the first trailer digit would leave its range. -/
  | tcTrailerRange
  /-- 0x07: a coordinate outside the quantiser's range. -/
  | tcCoordRange
  /-- 0x08: `WC` is odd. -/
  | tcParity
deriving DecidableEq, Repr

/-- The values reset leaves unspecified (spec/10_state.md R38, R301): whatever the environment
supplies. The arrays are given from index 0 up; a missing byte counts as 0, a byte too many is
dropped. -/
structure Unspecified where
  lsbHi : Byte
  lsbLo : Byte
  wc    : Half
  w     : List Byte
  pbuf  : List Byte
deriving DecidableEq, Repr

/-- What the host and the world outside present to the block (spec/00_scope.md R13,
spec/70_reset_and_hazards.md R300). -/
inductive HostEvent where
  /-- The host presents a command word (R90). -/
  | command (w : Word40)
  /-- A reset between two commands (R300), with the values it leaves unspecified. -/
  | reset (u : Unspecified)
deriving DecidableEq, Repr

/-- The state of the machine. The first group is the configuration (R20: not state of the block,
fixed for its life); the next ones are the registers and arrays of R20 under the spec's names; then
the host's input; then the observation of R40. -/
structure State where
  /-- The parameters of spec/00_scope.md R11. -/
  cfg    : Config
  /-- `CRC` (R21). -/
  crc    : Half
  /-- `ONES` (R22). -/
  ones   : BitVec 3
  /-- `POL` (R23). -/
  pol    : BitVec 1
  /-- `TXLVL` (R24). -/
  txlvl  : BitVec 1
  /-- `STRAT` (R29). -/
  strat  : BitVec 1
  /-- `LSB_HI` (R32). -/
  lsbHi  : Byte
  /-- `LSB_LO` (R32). -/
  lsbLo  : Byte
  /-- `FAULT`, sticky (R31). -/
  fault  : Byte
  /-- `STATUS.DUP` (R30); `STATUS.FULL` is computed. -/
  dup    : BitVec 1
  /-- `WC` (R25). -/
  wc     : Half
  /-- `FREQ` (R26). -/
  freq   : Word
  /-- `W[0 .. CAP-1]` (R35). -/
  w      : Memory
  /-- `PBUF[0 .. PBUF_SIZE-1]` (R37). -/
  pbuf   : Memory
  /-- `NVB[0 .. CAP-1]`, persistent (R36). -/
  nvb    : Memory
  /-- `NVC`, persistent (R36). -/
  nvc    : Half
  /-- What the host has yet to present, next first (R27: program order). -/
  pending   : List HostEvent
  /-- The response words given so far, oldest first (R40, R91). -/
  responses : List Word40
  /-- `TXTRACE`, oldest first (R40). -/
  txtrace   : List PhaseEvent
  /-- `SYMTRACE`, oldest first (R40). -/
  symtrace  : List Symbol
deriving DecidableEq, Repr

/-- Why the machine would stop with a fault: nothing makes it. No constructor, because a faulting
command ends with a response and the block accepts the next command (R275); such a command is a
NEXT state. Safe: nothing is stopped that the hardware goes on with. -/
inductive Fault where
deriving DecidableEq, Repr

/-- Why a command would have no meaning. -/
inductive Refusal where
  /-- Raised by an arm of `exec` whose instruction is not modelled yet (none is); safe. -/
  | notModelled (mnemonic : String)
deriving DecidableEq, Repr

/-- The machine right after reset (R301). Values the spec gives: `CRC`, `ONES`, `POL`, `TXLVL`,
`STRAT`, `FAULT`, `DUP`, `FREQ`, empty traces. DESIGN CHOICE, unsafe: the configuration
(notes/assumptions/1.md), zero for every location the spec leaves unspecified
(notes/assumptions/2.md) and for the persistent store (notes/assumptions/3.md); `State.launch` in
Machine/Ops.lean takes all of them as arguments. -/
def State.reset : State where
  cfg := Config.sample
  crc := crcInit
  ones := 0#3
  pol := 0#1
  txlvl := 0#1
  strat := 0#1
  lsbHi := 0#8
  lsbLo := 0#8
  fault := 0#8
  dup := 0#1
  wc := 0#16
  freq := 0#32
  w := []
  pbuf := []
  nvb := []
  nvc := 0#16
  pending := []
  responses := []
  txtrace := []
  symtrace := []

end Sys2Proof.Machine
end

