-- ==== Sys2Proof/Machine/Flags.lean ====
section
/-! DEFINITION. The flag registers: `STATUS` (spec/10_state.md R30) and `FAULT` (R31), and the fault
codes (spec/60_exceptions.md R271). -/

namespace Sys2Proof.Machine

/-- The status byte of a fault (R271). -/
def FaultCode.code : FaultCode → Byte
  | .illegalCmd => 0x01#8
  | .pbufRange => 0x02#8
  | .regAccess => 0x03#8
  | .tcIndex => 0x04#8
  | .tcCountOverflow => 0x05#8
  | .tcTrailerRange => 0x06#8
  | .tcCoordRange => 0x07#8
  | .tcParity => 0x08#8

/-- The sticky bit of a fault with code `c`: bit `c - 1` of `FAULT` (R31). -/
def FaultCode.mask (c : FaultCode) : Byte := 1#8 <<< (c.code.toNat - 1)

/-- `FAULT` after a fault: its bit set, the others kept (R31, R275). -/
def setFault (c : FaultCode) (fault : Byte) : Byte := fault ||| c.mask

/-- `STATUS.FULL`: not stored, the value of `WC >= CAP` (R30). -/
def statusFull (s : State) : BitVec 1 := BitVec.ofBool (decide (s.cfg.cap ≤ s.wc.toNat))

/-- Register 0x08: bit 1 `FULL`, bit 0 `DUP` (R30, spec/46_system_commands.md R252). -/
def statusWord (s : State) : Word := 0#30 ++ statusFull s ++ s.dup

/-- The logical length of the trail, `min(WC, CAP)` (spec/00_scope.md R19). -/
def logicalLength (s : State) : Nat := min s.wc.toNat s.cfg.cap

/-- `WC` is odd, which the pair commands refuse (spec/45_trail_cache.md R225). -/
def oddCount (s : State) : Bool := decide (s.wc.toNat % 2 = 1)

end Sys2Proof.Machine
end

