-- ==== Sys2Proof/Machine/Operands.lean ====
section
/-! DEFINITION. Operand forms: the bits of a byte in the order they are sent, the range checks of a
PBUF operand, and the quantised form of a coordinate. -/

namespace Sys2Proof.Machine

/-- The eight bits of a byte, least significant first (spec/20_memory.md R66). -/
def bitsLsbFirst (v : Byte) : List Bool :=
  [v.getLsbD 0, v.getLsbD 1, v.getLsbD 2, v.getLsbD 3,
   v.getLsbD 4, v.getLsbD 5, v.getLsbD 6, v.getLsbD 7]

/-- The low byte of a 16-bit value (R67). -/
def lowByte (x : Half) : Byte := x.extractLsb' 0 8

/-- The high byte of a 16-bit value (R67). -/
def highByte (x : Half) : Byte := x.extractLsb' 8 8

/-- A single PBUF byte is in range (R61). -/
def pbufByteInRange (cfg : Config) (a : Nat) : Bool := decide (a < cfg.pbufSize)

/-- A run of `len` PBUF bytes from `a` is in range; the sum does not wrap (R61,
spec/46_system_commands.md R256). -/
def pbufRunInRange (cfg : Config) (a len : Nat) : Bool := decide (a + len ≤ cfg.pbufSize)

/-- The coordinate range of the quantiser (spec/45_trail_cache.md R228). -/
def coordInRange (lat lon : Int) : Bool :=
  decide (-9000 ≤ lat) && decide (lat ≤ 9000) && decide (-18000 ≤ lon) && decide (lon ≤ 18000)

/-- `QLat` in its integer form (R227). -/
def qLat (lat : Int) : Int := (lat + 9100) / 200 + quantOffset

/-- `QLon` in its integer form (R227). -/
def qLon (lon : Int) : Int := (lon + 18200) / 400 + quantOffset

/-- The quantised latitude as a byte. -/
def qLatByte (lat : Int) : Byte := BitVec.ofInt 8 (qLat lat)

/-- The quantised longitude as a byte. -/
def qLonByte (lon : Int) : Byte := BitVec.ofInt 8 (qLon lon)

end Sys2Proof.Machine
end

