-- ==== Sys2Proof/Machine/Ops.lean ====
section
/-! DEFINITION. The named operations every meaning is written over: the byte arrays, the register
map, the response, taking a fault, and reset. -/

namespace Sys2Proof.Machine

/-- The three outcomes of a command of this machine. -/
abbrev Result := Host.Outcome State Fault Refusal

/-! ### Byte arrays (spec/20_memory.md R61 to R63, R70) -/

/-- What an index that nothing has written reads as. DESIGN CHOICE, unsafe
(notes/assumptions/2.md): R38 leaves the value unspecified and says that reading it is no fault. -/
def Memory.unlisted : Byte := 0#8

/-- One byte. -/
def Memory.read : Memory → Nat → Byte
  | [], _ => Memory.unlisted
  | (k, v) :: rest, a => if k = a then v else Memory.read rest a

/-- Every entry but those of `a`. -/
def Memory.erase (m : Memory) (a : Nat) : Memory := m.filter (fun c => c.1 != a)

/-- A new entry before the first greater index. -/
def Memory.place : Memory → Nat → Byte → Memory
  | [], a, v => [(a, v)]
  | c :: rest, a, v => if a < c.1 then (a, v) :: c :: rest else c :: Memory.place rest a v

/-- Write one byte, keeping the canonical form. -/
def Memory.write (m : Memory) (a : Nat) (v : Byte) : Memory :=
  if v = Memory.unlisted then Memory.erase m a else Memory.place (Memory.erase m a) a v

/-- The bytes of a run, in ascending order (R68, R70). -/
def Memory.readRun (m : Memory) (a n : Nat) : List Byte :=
  (List.range n).map (fun i => Memory.read m (a + i))

/-- Write a run of bytes in ascending order (R70). -/
def Memory.writeRun : Memory → Nat → List Byte → Memory
  | m, _, [] => m
  | m, a, v :: vs => Memory.writeRun (Memory.write m a v) (a + 1) vs

/-- The canonical form: indices strictly rising, no entry equal to an unlisted one. -/
def Memory.wf : Memory → Bool
  | [] => true
  | (k, v) :: rest =>
    (v != Memory.unlisted) && rest.all (fun c => decide (k < c.1)) && Memory.wf rest

/-- Every listed index is below `n`. -/
def Memory.within (m : Memory) (n : Nat) : Bool := m.all (fun c => decide (c.1 < n))

/-! ### Responses and faults -/

/-- A response word: the status in bits 39:32, the result in bits 31:0 (spec/30_encoding.md R91). -/
def responseWord (status : Byte) (result : Word) : Word40 :=
  (status.setWidth 40 <<< (32 : Nat)) ||| result.setWidth 40

/-- The state with one more response word (R91). -/
def State.answered (r : Word40) (s : State) : State := { s with responses := s.responses ++ [r] }

/-- `respond(r)`: the command ends with status 0 and result `r` (spec/00_scope.md R16, R91). -/
def respond (r : Word) (s : State) : Result := .next (s.answered (responseWord 0#8 r))

/-- The state after a fault with code `c`: the sticky bit set, the response `{c, 0}`, and nothing
else changed (spec/60_exceptions.md R275). -/
def State.faulted (c : FaultCode) (s : State) : State :=
  { s with fault := setFault c s.fault, responses := s.responses ++ [responseWord c.code 0#32] }

/-- `raise F`: taking a fault (R275). Called on the state the command started in, so that no change
of the faulting command is kept (R272). There is no return from a fault (R277): the block goes on
with the next command. -/
def raise (c : FaultCode) (s : State) : Result := .next (s.faulted c)

/-! ### The register map (spec/10_state.md R28) -/

/-- `REG[n]`, zero-extended; `none` for a number that is no register (R28, R252). -/
def readReg (n : Byte) (s : State) : Option Word :=
  match n.toNat with
  | 0x00 => some (s.crc.setWidth 32)
  | 0x01 => some (s.ones.setWidth 32)
  | 0x02 => some (s.pol.setWidth 32)
  | 0x03 => some (s.txlvl.setWidth 32)
  | 0x04 => some (s.strat.setWidth 32)
  | 0x05 => some (s.lsbHi.setWidth 32)
  | 0x06 => some (s.lsbLo.setWidth 32)
  | 0x07 => some (s.fault.setWidth 32)
  | 0x08 => some (statusWord s)
  | 0x09 => some (s.wc.setWidth 32)
  | 0x0A => some s.freq
  | 0x0B => some (s.nvc.setWidth 32)
  | 0x0C => some (BitVec.ofNat 32 s.cfg.cap)
  | 0x0D => some (BitVec.ofNat 32 s.cfg.pbufSize)
  | _ => none

/-- A register written by number; `none` for a read-only number, no register, or a `STRAT` value
above 1 (R28, R29, R253). -/
def writeReg (n v : Byte) (s : State) : Option State :=
  match n.toNat with
  | 0x04 => if v.toNat ≤ 1 then some { s with strat := v.extractLsb' 0 1 } else none
  | 0x05 => some { s with lsbHi := v }
  | 0x06 => some { s with lsbLo := v }
  | _ => none

/-! ### Reset (spec/70_reset_and_hazards.md R300 to R303) -/

/-- An array of `n` bytes holding `vs` from index 0 up. -/
def arrayOf (n : Nat) (vs : List Byte) : Memory := Memory.writeRun [] 0 (vs.take n)

/-- Reset: every register at its value of R301, the unspecified ones at what the environment
supplies, `NVB`, `NVC` and the configuration kept (R302). The traces are the record of the run and
are kept (notes/assumptions/5.md). -/
def resetBlock (u : Unspecified) (s : State) : State :=
  { s with
    crc := crcInit, ones := 0#3, pol := 0#1, txlvl := 0#1, strat := 0#1,
    lsbHi := u.lsbHi, lsbLo := u.lsbLo, fault := 0#8, dup := 0#1, wc := u.wc, freq := 0#32,
    w := arrayOf s.cfg.cap u.w, pbuf := arrayOf s.cfg.pbufSize u.pbuf }

/-- The launch state of a claim (R303): reset with arbitrary unspecified values, an arbitrary
persistent store, a fixed configuration and empty traces. -/
def State.launch (cfg : Config) (u : Unspecified) (nvb : List Byte) (nvc : Half) : State :=
  resetBlock u
    { State.reset with cfg := cfg, nvb := arrayOf cfg.cap nvb, nvc := nvc }

end Sys2Proof.Machine
end

