-- ==== Sys2Proof/Machine/Tone.lean ====
section
/-! DEFINITION. The Tone Modulator (spec/41_tone_modulator.md): phases, tones, the symbol
primitive, and TM_MARK and TM_SPACE. -/

namespace Sys2Proof.Machine

/-- `Phase(ph, d)` (R152). -/
def phase (ph : PhaseHalf) (d : Delay) (s : State) : State :=
  if s.strat = 0#1 then
    let level := if ph = .hi then 1#1 else 0#1
    { s with txlvl := level, txtrace := s.txtrace ++ [.drive level d] }
  else
    let byte := if ph = .hi then s.lsbHi else s.lsbLo
    { s with txtrace := s.txtrace ++ [.regWrite s.cfg.radioLsbAddr byte d] }

/-- One pulse: a `HI` phase then a `LO` phase (R153, R154). -/
def pulse (d : Delay) (s : State) : State := phase .lo d (phase .hi d s)

/-- `append x to SYMTRACE` (R153, R154). -/
def State.symbol (x : Symbol) (s : State) : State := { s with symtrace := s.symtrace ++ [x] }

/-- `Mark()`: one pulse of `T_MARK` (R153). -/
def markTone (s : State) : State := (pulse .tMark s).symbol .mark

/-- `Space()`: two pulses of `T_SPACE` (R154). -/
def spaceTone (s : State) : State := (pulse .tSpace (pulse .tSpace s)).symbol .space

/-- `Symbol(p)`: mark for polarity 1, space for polarity 0 (R155). -/
def emitSymbol (p : BitVec 1) (s : State) : State := if p = 1#1 then markTone s else spaceTone s

/-- TM_MARK (R156). -/
def execTmMark (s : State) : Result := respond 0#32 (markTone s)

/-- TM_SPACE (R157). -/
def execTmSpace (s : State) : Result := respond 0#32 (spaceTone s)

end Sys2Proof.Machine
end

