-- ==== Sys2Proof/Machine/Encoder.lean ====
section
/-! DEFINITION. The Frame Bitstream Encoder (spec/40_frame_bitstream_encoder.md): the bit step, and
CRC_RESET, EMIT_BYTE, EMIT_FLAG, EMIT_STRING, EMIT_CRC. -/

namespace Sys2Proof.Machine

/-- `CrcBit(b)` on a `CRC` value (R121). -/
def crcBit (b : Bool) (crc : Half) : Half :=
  if (b != crc.getLsbD 0) = true then (crc >>> 1) ^^^ crcPoly else crc >>> 1

/-- The bit step `FbeBit(b, f)` (R122); `f` is the flag-mode bit. -/
def fbeBit (f b : Bool) (s : State) : State :=
  let s := { s with crc := crcBit b s.crc }
  if b then
    let s := emitSymbol s.pol s
    if f then { s with ones := 0#3 }
    else
      let s := { s with ones := s.ones + 1#3 }
      if s.ones.toNat = stuffThreshold then
        let s := { s with pol := ~~~s.pol }
        let s := emitSymbol s.pol s
        { s with ones := 0#3 }
      else s
  else
    let s := { s with pol := ~~~s.pol }
    let s := emitSymbol s.pol s
    { s with ones := 0#3 }

/-- The bit step over a list of bits, first bit first. -/
def emitBits (f : Bool) : List Bool → State → State
  | [], s => s
  | b :: bs, s => emitBits f bs (fbeBit f b s)

/-- The bit step over a list of bytes, each least significant bit first (R66, R68). -/
def emitBytes (f : Bool) (vs : List Byte) (s : State) : State :=
  emitBits f (vs.flatMap bitsLsbFirst) s

/-- The number of symbols `t` has beyond `s`, as a result field (spec/30_encoding.md R101). -/
def symbolsSince (s t : State) : Word := BitVec.ofNat 32 (t.symtrace.length - s.symtrace.length)

/-- Emit bytes and respond with the number of symbols (R124 to R126). -/
def emitAndCount (f : Bool) (vs : List Byte) (s : State) : Result :=
  respond (symbolsSince s (emitBytes f vs s)) (emitBytes f vs s)

/-- CRC_RESET (R123). -/
def execCrcReset (s : State) : Result := respond 0#32 { s with crc := crcInit }

/-- EMIT_BYTE (R124). -/
def execEmitByte (v : Byte) (f : Bool) (s : State) : Result := emitAndCount f [v] s

/-- EMIT_FLAG (R125). -/
def execEmitFlag (c : Half) (s : State) : Result :=
  emitAndCount true (List.replicate c.toNat flagByte) s

/-- EMIT_STRING (R126). -/
def execEmitString (a l : Half) (s : State) : Result :=
  if pbufRunInRange s.cfg a.toNat l.toNat then
    emitAndCount false (s.pbuf.readRun a.toNat l.toNat) s
  else raise .pbufRange s

/-- EMIT_CRC: the trailer is latched before its first bit is sent, low byte first (R127, R67). -/
def execEmitCrc (s : State) : Result :=
  let fcslat := ~~~s.crc
  respond (fcslat.setWidth 32) (emitBytes false [lowByte fcslat, highByte fcslat] s)

end Sys2Proof.Machine
end

