-- ==== Sys2Proof/Machine/Geofence.lean ====
section
/-! DEFINITION. The Geofence Selector (spec/44_geofence_selector.md): the crossing-number test and
GS_CLASSIFY. -/

namespace Sys2Proof.Machine

/-- The edge from `vj` to `vi` is counted for the point: its half-open longitude span holds the
point and the point lies strictly below it, cross-multiplied (R202). -/
def edgeCounted (lat lon : Int) (vj vi : Vertex) : Bool :=
  if decide (lon < vi.lon) != decide (lon < vj.lon) then
    let dl := vj.lon - vi.lon
    let lhs := (lat - vi.lat) * dl
    let rhs := (vj.lat - vi.lat) * (lon - vi.lon)
    (decide (0 < dl) && decide (lhs < rhs)) || (decide (dl < 0) && decide (rhs < lhs))
  else false

/-- The loop of R202 from the vertex `vj` along the list, `c` the parity so far. -/
def walkEdges (lat lon : Int) (vj : Vertex) (c : Bool) : List Vertex → Bool
  | [] => c
  | vi :: rest => walkEdges lat lon vi (if edgeCounted lat lon vj vi then !c else c) rest

/-- `InPoly(k, lat, lon)` for the vertices of region `k`; the polygon closes from the last vertex
to the first (R200, R202). -/
def inPoly (vs : List Vertex) (lat lon : Int) : Bool :=
  match vs.getLast? with
  | none => false
  | some vj => walkEdges lat lon vj false vs

/-- The frequency of a point: the first matching region's, else the default (R203). -/
def classify (cfg : Config) (lat lon : Int) : Word :=
  if lat = 0 ∧ lon = 0 then cfg.defaultFreq
  else
    match cfg.regions.find? (fun r => inPoly r.vertices lat lon) with
    | some r => r.freq
    | none => cfg.defaultFreq

/-- GS_CLASSIFY (R203). -/
def execGsClassify (lat lon : Int) (s : State) : Result :=
  respond (classify s.cfg lat lon) { s with freq := classify s.cfg lat lon }

end Sys2Proof.Machine
end

