-- ==== Sys2Proof/Machine/System.lean ====
section
/-! DEFINITION. The system commands (spec/46_system_commands.md): NOP, RDREG, WRREG, WRBUF,
RDBUF. -/

namespace Sys2Proof.Machine

/-- NOP (R251). -/
def execNop (s : State) : Result := respond 0#32 s

/-- RDREG (R252). -/
def execRdreg (n : Byte) (s : State) : Result :=
  match readReg n s with
  | some v => respond v s
  | none => raise .regAccess s

/-- WRREG (R253). -/
def execWrreg (n v : Byte) (s : State) : Result :=
  match writeReg n v s with
  | some t => respond 0#32 t
  | none => raise .regAccess s

/-- WRBUF (R254). -/
def execWrbuf (a : Half) (v : Byte) (s : State) : Result :=
  if pbufByteInRange s.cfg a.toNat then respond 0#32 { s with pbuf := s.pbuf.write a.toNat v }
  else raise .pbufRange s

/-- RDBUF (R255). -/
def execRdbuf (a : Half) (s : State) : Result :=
  if pbufByteInRange s.cfg a.toNat then respond ((s.pbuf.read a.toNat).setWidth 32) s
  else raise .pbufRange s

end Sys2Proof.Machine
end

