-- ==== Sys2Proof/Machine/Trail.lean ====
section
/-! DEFINITION. The Position Trail Cache (spec/45_trail_cache.md): the push, the deduplicating pair
push, the trailer, and the seven TC commands. -/

namespace Sys2Proof.Machine

/-- `Push(v)` (R221): append below capacity, else shift left by one and write the last byte; the
count grows in both cases. Its callers have checked that the count does not pass 0xFFFF. -/
def push (v : Byte) (s : State) : State :=
  if s.wc.toNat < s.cfg.cap then
    { s with w := s.w.write s.wc.toNat v, wc := s.wc + 1#16 }
  else
    { s with
      w := (s.w.writeRun 0 (s.w.readRun 1 (s.cfg.cap - 1))).write (s.cfg.cap - 1) v,
      wc := s.wc + 1#16 }

/-- The pair equals the recorded pair that ends `back` bytes before the end of the trail. -/
def pairAt (back : Nat) (p q : Byte) (s : State) : Bool :=
  decide (back ≤ logicalLength s) &&
  decide (s.w.read (logicalLength s - back) = p) &&
  decide (s.w.read (logicalLength s - back + 1) = q)

/-- The pair equals one of the last two recorded pairs (R226: `dup1 or dup2`). -/
def isDuplicate (p q : Byte) (s : State) : Bool := pairAt 2 p q s || pairAt 4 p q s

/-- The body of TC_PUSHPAIR (R226), which TC_RECORD shares (R228); `result` is the result field
read from the state after the command. -/
def pushPair (p q : Byte) (result : State → Word) (s : State) : Result :=
  if oddCount s then raise .tcParity s
  else if isDuplicate p q s then
    let t := { s with dup := 1#1 }
    respond (result t) t
  else if 0xFFFD < s.wc.toNat then raise .tcCountOverflow s
  else
    let t := { push q (push p s) with dup := 0#1 }
    respond (result t) t

/-- The count as a result field, `{16'b0, WC}` (spec/30_encoding.md R101). -/
def countResult (s : State) : Word := s.wc.setWidth 32

/-- A trailer digit as a byte (R230). -/
def trailerDigit (n : Nat) : Byte := BitVec.ofNat 8 (n + quantOffset)

/-- `Trailer(WC)` (R230). -/
def trailer (cfg : Config) (wc : Nat) : List Byte :=
  [cfg.trailDelim, trailerDigit (wc / 2 / trailerDivisor), trailerDigit (wc / 2 % trailerDivisor)]

/-- What TC_EXPORT writes: the logical contents, oldest first, then the trailer (R231). -/
def exportBytes (s : State) : List Byte :=
  s.w.readRun 0 (logicalLength s) ++ trailer s.cfg s.wc.toNat

/-- TC_GET (R222). -/
def execTcGet (s : State) : Result :=
  let t := { s with w := s.w.writeRun 0 (s.nvb.readRun 0 s.cfg.cap), wc := s.nvc }
  respond (countResult t) t

/-- TC_PUSH (R223). -/
def execTcPush (v : Byte) (s : State) : Result :=
  if s.wc = 0xFFFF#16 then raise .tcCountOverflow s
  else respond (countResult (push v s)) (push v s)

/-- TC_STORE (R224). -/
def execTcStore (s : State) : Result :=
  let t := { s with nvb := s.nvb.writeRun 0 (s.w.readRun 0 s.cfg.cap), nvc := s.wc }
  respond (countResult t) t

/-- TC_PUSHPAIR (R226). -/
def execTcPushpair (p q : Byte) (s : State) : Result := pushPair p q countResult s

/-- TC_RECORD (R228). -/
def execTcRecord (lat lon : Int) (s : State) : Result :=
  if coordInRange lat lon then
    pushPair (qLatByte lat) (qLonByte lon) (fun t => qLatByte lat ++ qLonByte lon ++ t.wc) s
  else raise .tcCoordRange s

/-- TC_READ (R229). -/
def execTcRead (c : Half) (s : State) : Result :=
  if c.toNat < s.cfg.cap then respond ((s.w.read c.toNat).setWidth 32) s
  else raise .tcIndex s

/-- TC_EXPORT (R231). -/
def execTcExport (a : Half) (s : State) : Result :=
  if oddCount s then raise .tcParity s
  else if 8189 < s.wc.toNat / 2 then raise .tcTrailerRange s
  else if pbufRunInRange s.cfg a.toNat (logicalLength s + 3) then
    respond (BitVec.ofNat 32 (logicalLength s + 3))
      { s with pbuf := s.pbuf.writeRun a.toNat (exportBytes s) }
  else raise .pbufRange s

end Sys2Proof.Machine
end

