-- ==== Sys2Proof/Machine/Dispatch.lean ====
section
/-! DEFINITION. One arm per command: the direct call of its meaning. -/

namespace Sys2Proof.Machine

def exec (i : Instr) (s : State) : Host.Outcome State Fault Refusal :=
  match i with
  | .nop => Sys2Proof.Machine.execNop s
  | .crcReset => Sys2Proof.Machine.execCrcReset s
  | .emitByte v f => Sys2Proof.Machine.execEmitByte v f s
  | .emitFlag c => Sys2Proof.Machine.execEmitFlag c s
  | .emitString a l => Sys2Proof.Machine.execEmitString a l s
  | .emitCrc => Sys2Proof.Machine.execEmitCrc s
  | .tmMark => Sys2Proof.Machine.execTmMark s
  | .tmSpace => Sys2Proof.Machine.execTmSpace s
  | .gsClassify lat lon => Sys2Proof.Machine.execGsClassify lat lon s
  | .tcGet => Sys2Proof.Machine.execTcGet s
  | .tcPush v => Sys2Proof.Machine.execTcPush v s
  | .tcStore => Sys2Proof.Machine.execTcStore s
  | .tcPushpair p q => Sys2Proof.Machine.execTcPushpair p q s
  | .tcRecord lat lon => Sys2Proof.Machine.execTcRecord lat lon s
  | .tcRead c => Sys2Proof.Machine.execTcRead c s
  | .tcExport a => Sys2Proof.Machine.execTcExport a s
  | .rdreg n => Sys2Proof.Machine.execRdreg n s
  | .wrreg n v => Sys2Proof.Machine.execWrreg n v s
  | .wrbuf a v => Sys2Proof.Machine.execWrbuf a v s
  | .rdbuf a => Sys2Proof.Machine.execRdbuf a s

end Sys2Proof.Machine
end

