-- ==== Sys2Proof/Machine/Fetch.lean ====
section
/-! DEFINITION. What the block does with one thing the host presents (spec/30_encoding.md R96,
spec/60_exceptions.md R274: decoding comes first). -/

namespace Sys2Proof.Machine

/-- One command word: the command it decodes to, or the fault ILLEGAL_CMD (R96, R272). -/
def runWord (w : Word40) (s : State) : Result :=
  match decode w with
  | some i => exec i s
  | none => raise .illegalCmd s

/-- The next thing the host presents: a command word, a reset, or nothing, in which case the block
idles with its state unchanged (spec/70_reset_and_hazards.md R300, R310). -/
def runNext (s : State) : Result :=
  match s.pending with
  | [] => .next s
  | .command w :: rest => runWord w { s with pending := rest }
  | .reset u :: rest => .next (resetBlock u { s with pending := rest })

/-- The state with one more command word in front of what the host presents. -/
def presentWord (w : Word40) (s : State) : State := { s with pending := .command w :: s.pending }

end Sys2Proof.Machine
end

