-- ==== Sys2Proof/Machine/Step.lean ====
section
/-! DEFINITION. One step: one command from its word to its response (spec/00_scope.md R14), or one
reset, or idling. -/

namespace Sys2Proof.Machine

/-- One atomic transition (R14). -/
def step (s : State) : Host.Outcome State Fault Refusal := runNext s

/-- `s` with the table word presented next, so that the very next step runs it. The block fetches
no instructions; the host presents each word (spec/20_memory.md R78, notes/assumptions/4.md). -/
def State.withFetchWord (s : State) (nbits w : Nat) : State := presentWord (tableWord nbits w) s

end Sys2Proof.Machine
end

