-- ==== Sys2Proof/Machine/Frame.lean ====
section
/-! DEFINITION. The frame as a data format and the canonical host program
(spec/43_frame_sequencer.md), and the pseudo-commands (spec/30_encoding.md R100). The block has no
command that sends a frame (spec/00_scope.md R6): these are lists of commands a host presents. -/

namespace Sys2Proof.Machine

/-- A callsign padded on the right with spaces to six characters (R181). -/
def padCall (call : List Byte) : List Byte := call ++ List.replicate (6 - call.length) 0x20#8

/-- `AddrField(call, ssid, last)`, `ssid` in 0..15 (R182). For a longer callsign or a larger SSID,
outside the format, DESIGN CHOICE: the same formula (notes/assumptions/12.md). -/
def addrField (call : List Byte) (ssid : Nat) (last : Bool) : List Byte :=
  (padCall call).map (fun c : Byte => c <<< (1 : Nat)) ++
    [(BitVec.ofNat 8 (0x30 + ssid) <<< (1 : Nat)) ||| (BitVec.ofBool last).setWidth 8]

/-- `WRSTR a, s` (R100). An address above 0xFFFF has no WRBUF encoding and R100 gives no expansion for
it: DESIGN CHOICE, its low 16 bits are taken, unsafe (notes/assumptions/14.md). -/
def wrstr (a : Nat) : List Byte → List Instr
  | [] => []
  | v :: vs => .wrbuf (BitVec.ofNat 16 a) v :: wrstr (a + 1) vs

/-- `EMIT_ADDR call, ssid, last` (R100). -/
def emitAddr (call : List Byte) (ssid : Nat) (last : Bool) : List Instr :=
  (addrField call ssid last).map (fun b => .emitByte b false)

/-- `EMIT_CHAR c` (R100). -/
def emitChar (c : Byte) : List Instr := [.emitByte c false]

/-- `FLAGS n` (R100). A count above 0xFFFF has no EMIT_FLAG encoding and R100 gives no expansion for
it: DESIGN CHOICE, its low 16 bits are taken, unsafe (notes/assumptions/14.md). -/
def flags (n : Nat) : List Instr := [.emitFlag (BitVec.ofNat 16 n)]

/-- An address: callsign characters and SSID (R180). -/
structure Address where
  call : List Byte
  ssid : Nat
deriving DecidableEq, Repr

/-- What a frame is made of (R180): at most one digipeater, the marker, and the payload's place in
PBUF. R185 gives the markers `markerPosition` and `markerStatus`; DESIGN CHOICE: any byte may stand
there, and the payload is not tied to it (notes/assumptions/15.md). -/
structure FrameParts where
  dest    : Address
  src     : Address
  digi    : Option Address
  marker  : Byte
  payloadAt  : Half
  payloadLen : Half
deriving DecidableEq, Repr

/-- The address fields in the order sent; exactly the final one carries the end-of-header marker
(R183). -/
def FrameParts.addresses (f : FrameParts) : List Byte :=
  match f.digi with
  | none => addrField f.dest.call f.dest.ssid false ++ addrField f.src.call f.src.ssid true
  | some d =>
    addrField f.dest.call f.dest.ssid false ++ addrField f.src.call f.src.ssid false ++
      addrField d.call d.ssid true

/-- The address commands of the canonical program (R187). -/
def FrameParts.addressCommands (f : FrameParts) : List Instr :=
  match f.digi with
  | none => emitAddr f.dest.call f.dest.ssid false ++ emitAddr f.src.call f.src.ssid true
  | some d =>
    emitAddr f.dest.call f.dest.ssid false ++ emitAddr f.src.call f.src.ssid false ++
      emitAddr d.call d.ssid true

/-- `SEND_FRAME`: the unbracketed lines of the canonical transmission program (R187). -/
def sendFrame (cfg : Config) (f : FrameParts) : List Instr :=
  flags cfg.leadinFlags ++ [.crcReset] ++ f.addressCommands ++
    [.emitByte ctrlByte false, .emitByte pidByte false] ++ emitChar f.marker ++
    [.emitString f.payloadAt f.payloadLen, .emitCrc] ++ flags cfg.trailFlags

/-- The bytes the CRC covers (R188). -/
def FrameParts.covered (f : FrameParts) (payload : List Byte) : List Byte :=
  f.addresses ++ [ctrlByte, pidByte, f.marker] ++ payload

/-- The payload of a position report after its marker: latitude string, symbol overlay, longitude
string, symbol code, comment (R186). R186 fixes 8 latitude and 9 longitude characters; DESIGN CHOICE: the
concatenation is computed for strings of any length (notes/assumptions/15.md). -/
def positionPayload (lat : List Byte) (overlay : Byte) (lon : List Byte) (code : Byte)
    (comment : List Byte) : List Byte :=
  lat ++ [overlay] ++ lon ++ [code] ++ comment

/-- The boot sequence of spec/70_reset_and_hazards.md R308 for the strategy bit `strat`. -/
def bootSequence (strat : Bool) (hi lo : Byte) : List Instr :=
  match strat with
  | false => [.wrreg 0x04#8 0#8, .tcGet]
  | true => [.wrreg 0x04#8 1#8, .wrreg 0x05#8 hi, .wrreg 0x06#8 lo, .tcGet]

end Sys2Proof.Machine
end

