-- ==== Sys2Proof/Machine/Reference.lean ====
section
/-! DEFINITION. The reference side of the statements: the receiver's decoder of
spec/40_frame_bitstream_encoder.md R130 (of the test bench, not of the block), the line code as a
composition of stuffing and NRZI, the symbols of a phase trace (spec/10_state.md R40), and the
contents of the trail. No meaning uses any of these. -/

namespace Sys2Proof.Machine

/-! ### The line code -/

/-- The symbol of a polarity (spec/10_state.md R23). -/
def symbolOf (p : BitVec 1) : Symbol := if p = 1#1 then .mark else .space

/-- The bits put on the line for data bits when `k` consecutive ones precede them: a zero follows
every fifth consecutive one (R122, data mode). -/
def stuff : Nat → List Bool → List Bool
  | _, [] => []
  | _, false :: bs => false :: stuff 0 bs
  | k, true :: bs =>
    if k + 1 = stuffThreshold then true :: false :: stuff 0 bs else true :: stuff (k + 1) bs

/-- The run counter after data bits (R122, data mode). -/
def runAfter : Nat → List Bool → Nat
  | k, [] => k
  | _, false :: bs => runAfter 0 bs
  | k, true :: bs => if k + 1 = stuffThreshold then runAfter 0 bs else runAfter (k + 1) bs

/-- The NRZI polarity after line bits: a zero flips, a one does not (R122, R130). -/
def polarityAfter : BitVec 1 → List Bool → BitVec 1
  | p, [] => p
  | p, true :: bs => polarityAfter p bs
  | p, false :: bs => polarityAfter (~~~p) bs

/-- The symbols of line bits, one per bit (R122). -/
def nrziSymbols : BitVec 1 → List Bool → List Symbol
  | _, [] => []
  | p, true :: bs => symbolOf p :: nrziSymbols p bs
  | p, false :: bs => symbolOf (~~~p) :: nrziSymbols (~~~p) bs

/-- NRZI decoding against the symbol before the first: same = one, change = zero (R130). -/
def nrziDecode : Symbol → List Symbol → List Bool
  | _, [] => []
  | before, x :: xs => decide (x = before) :: nrziDecode x xs

/-- Destuffing when `k` consecutive ones precede: every zero that directly follows five consecutive
ones is deleted (R130). -/
def destuff : Nat → List Bool → List Bool
  | _, [] => []
  | k, true :: bs => true :: destuff (k + 1) bs
  | k, false :: bs => if stuffThreshold ≤ k then destuff 0 bs else false :: destuff 0 bs

/-- `CrcBit` over a list of bits (R121). -/
def crcBits (c : Half) (bs : List Bool) : Half := bs.foldl (fun c b => crcBit b c) c

/-- The bits of a list of bytes in the order they are sent (spec/20_memory.md R66, R68). -/
def dataBits (vs : List Byte) : List Bool := vs.flatMap bitsLsbFirst

/-! ### Phase traces -/

/-- The phase events of one symbol under the strategy and carrier bytes of `s`
(spec/41_tone_modulator.md R152 to R154). -/
def symbolEvents (s : State) (x : Symbol) : List PhaseEvent :=
  let event (ph : PhaseHalf) (d : Delay) : PhaseEvent :=
    if s.strat = 0#1 then .drive (if ph = .hi then 1#1 else 0#1) d
    else .regWrite s.cfg.radioLsbAddr (if ph = .hi then s.lsbHi else s.lsbLo) d
  match x with
  | .mark => [event .hi .tMark, event .lo .tMark]
  | .space => [event .hi .tSpace, event .lo .tSpace, event .hi .tSpace, event .lo .tSpace]

/-- The symbols a phase trace is made of: a mark is a high then a low phase of `T_MARK`, a space two
such pulses of `T_SPACE`, each in one strategy; `none` for any other trace (R40, R153, R154). -/
def symbolsOf : List PhaseEvent → Option (List Symbol)
  | [] => some []
  | .drive l1 .tMark :: .drive l2 .tMark :: rest =>
    if l1 = 1#1 ∧ l2 = 0#1 then (symbolsOf rest).map (.mark :: ·) else none
  | .regWrite _ _ .tMark :: .regWrite _ _ .tMark :: rest => (symbolsOf rest).map (.mark :: ·)
  | .drive l1 .tSpace :: .drive l2 .tSpace :: .drive l3 .tSpace :: .drive l4 .tSpace :: rest =>
    if l1 = 1#1 ∧ l2 = 0#1 ∧ l3 = 1#1 ∧ l4 = 0#1 then (symbolsOf rest).map (.space :: ·) else none
  | .regWrite _ _ .tSpace :: .regWrite _ _ .tSpace :: .regWrite _ _ .tSpace ::
      .regWrite _ _ .tSpace :: rest => (symbolsOf rest).map (.space :: ·)
  | _ => none

/-- The delay label of an event (R40). -/
def PhaseEvent.delay : PhaseEvent → Delay
  | .drive _ d => d
  | .regWrite _ _ d => d

/-- The length of a delay for one device (spec/00_scope.md R11). -/
def Delay.length (cfg : Config) : Delay → Nat
  | .tMark => cfg.tMark
  | .tSpace => cfg.tSpace

/-- The nominal length of a phase trace (spec/70_reset_and_hazards.md R322). -/
def traceLength (cfg : Config) (es : List PhaseEvent) : Nat :=
  (es.map (fun e => Delay.length cfg e.delay)).sum

/-! ### The trail -/

/-- The trail: the logical contents of `W`, oldest byte first (spec/20_memory.md R62). -/
def trail (s : State) : List Byte := s.w.readRun 0 (logicalLength s)

/-- The pair equals the last recorded pair of a trail or the one before it
(spec/45_trail_cache.md R226). -/
def amongLastTwoPairs (p q : Byte) (l : List Byte) : Prop :=
  [p, q] <:+ l ∨ ∃ x y, [p, q, x, y] <:+ l

/-- The last `n` elements of a list. -/
def lastOf (n : Nat) (l : List Byte) : List Byte := l.drop (l.length - n)

end Sys2Proof.Machine
end

