-- ==== Sys2Proof/Safety.lean ====
section
/-! DEFINITION. What a run that has not gone wrong is (spec/60_exceptions.md R276), the invariant of
every step, and the classes of commands the statements speak of. -/

namespace Sys2Proof.Machine

/-- The run has gone wrong: some command faulted (R276). -/
def goneWrong (s : State) : Bool := s.fault != 0#8

/-- The status byte of a response (spec/30_encoding.md R91). -/
def statusOf (r : Word40) : Byte := r.extractLsb' 32 8

/-- The result field of a response (R91). -/
def resultOf (r : Word40) : Word := r.extractLsb' 0 32

/-- A list of commands run in order (spec/10_state.md R27). -/
def execAll : List Instr → State → Host.Outcome State Fault Refusal
  | [], s => .next s
  | i :: is, s =>
    match exec i s with
    | .next t => execAll is t
    | .fault r => .fault r
    | .refused r => .refused r

/-- The invariant of every step. -/
structure Inv (s : State) : Prop where
  /-- The configuration meets the constraints of spec/00_scope.md R11. -/
  cfgWf : s.cfg.wf = true
  /-- The byte arrays are in canonical form and inside their sizes (spec/20_memory.md R60). -/
  wWf : s.w.wf = true ∧ s.w.within s.cfg.cap = true
  pbufWf : s.pbuf.wf = true ∧ s.pbuf.within s.cfg.pbufSize = true
  nvbWf : s.nvb.wf = true ∧ s.nvb.within s.cfg.cap = true
  /-- Between commands `ONES` is in 0..4 (R22, R128). -/
  onesLe : s.ones.toNat ≤ 4
  /-- The line is low between commands (R24). -/
  lineLow : s.txlvl = 0#1
  /-- `SYMTRACE` is the image of `TXTRACE` (R40). -/
  symbols : symbolsOf s.txtrace = some s.symtrace
  /-- A status is 0 or one of the eight codes, with result 0 (R91, R271). -/
  statuses : ∀ r ∈ s.responses,
    statusOf r = 0#8 ∨ ∃ c : FaultCode, statusOf r = c.code ∧ resultOf r = 0#32
  /-- A sticky bit stands only where some response carried its code (R31, R276). -/
  faultReported : ∀ c : FaultCode, s.fault &&& c.mask ≠ 0#8 →
    ∃ r ∈ s.responses, statusOf r = c.code
  /-- `FREQ` is 0, the default, or some region's frequency (R26, spec/44 R203). -/
  freqKnown : s.freq = 0#32 ∨ s.freq = s.cfg.defaultFreq ∨ ∃ r ∈ s.cfg.regions, s.freq = r.freq

/-- The commands that can raise nothing but ILLEGAL_CMD (spec/60_exceptions.md R273). -/
def cannotFault : Instr → Bool
  | .nop | .crcReset | .emitByte _ _ | .emitFlag _ | .emitCrc | .tmMark | .tmSpace
  | .gsClassify _ _ | .tcGet | .tcStore => true
  | .emitString _ _ | .tcPush _ | .tcPushpair _ _ | .tcRecord _ _ | .tcRead _ | .tcExport _
  | .rdreg _ | .wrreg _ _ | .wrbuf _ _ | .rdbuf _ => false

/-- The commands that send bits through the Frame Bitstream Encoder. -/
def sendsBits : Instr → Bool
  | .emitByte _ _ | .emitFlag _ | .emitString _ _ | .emitCrc => true
  | .nop | .crcReset | .tmMark | .tmSpace | .gsClassify _ _ | .tcGet | .tcPush _ | .tcStore
  | .tcPushpair _ _ | .tcRecord _ _ | .tcRead _ | .tcExport _ | .rdreg _ | .wrreg _ _
  | .wrbuf _ _ | .rdbuf _ => false

/-- The commands that send bits in data mode, with stuffing (spec/40_frame_bitstream_encoder.md
R122). -/
def sendsData : Instr → Bool
  | .emitByte _ f => !f
  | .emitString _ _ | .emitCrc => true
  | .nop | .crcReset | .emitFlag _ | .tmMark | .tmSpace | .gsClassify _ _ | .tcGet | .tcPush _
  | .tcStore | .tcPushpair _ _ | .tcRecord _ _ | .tcRead _ | .tcExport _ | .rdreg _ | .wrreg _ _
  | .wrbuf _ _ | .rdbuf _ => false

/-- The commands that emit symbols. -/
def emitsSymbols (i : Instr) : Bool := sendsBits i || i == .tmMark || i == .tmSpace

/-- The commands that write the working trail (spec/20_memory.md R60). -/
def writesTrail : Instr → Bool
  | .tcGet | .tcPush _ | .tcPushpair _ _ | .tcRecord _ _ => true
  | .nop | .crcReset | .emitByte _ _ | .emitFlag _ | .emitString _ _ | .emitCrc | .tmMark
  | .tmSpace | .gsClassify _ _ | .tcStore | .tcRead _ | .tcExport _ | .rdreg _ | .wrreg _ _
  | .wrbuf _ _ | .rdbuf _ => false

/-- The commands that write `STATUS.DUP` (spec/10_state.md R30). -/
def writesDup : Instr → Bool
  | .tcPushpair _ _ | .tcRecord _ _ => true
  | .nop | .crcReset | .emitByte _ _ | .emitFlag _ | .emitString _ _ | .emitCrc | .tmMark
  | .tmSpace | .gsClassify _ _ | .tcGet | .tcPush _ | .tcStore | .tcRead _ | .tcExport _
  | .rdreg _ | .wrreg _ _ | .wrbuf _ _ | .rdbuf _ => false

/-- The commands that write PBUF (spec/10_state.md R37). -/
def writesPbuf : Instr → Bool
  | .wrbuf _ _ | .tcExport _ => true
  | .nop | .crcReset | .emitByte _ _ | .emitFlag _ | .emitString _ _ | .emitCrc | .tmMark
  | .tmSpace | .gsClassify _ _ | .tcGet | .tcPush _ | .tcStore | .tcPushpair _ _
  | .tcRecord _ _ | .tcRead _ | .rdreg _ | .wrreg _ _ | .rdbuf _ => false

/-- The two states agree on everything but the modulation path: `STRAT`, the carrier bytes, the line
and `TXTRACE` (spec/41_tone_modulator.md R151, R152). -/
def sameButModulation (s t : State) : Prop :=
  t = { s with strat := t.strat, lsbHi := t.lsbHi, lsbLo := t.lsbLo, txlvl := t.txlvl,
               txtrace := t.txtrace }

end Sys2Proof.Machine
end

