-- ==== Sys2Proof/Certificates/Slice0/Obligations.lean ====
section
/-! DEFINITION. The statements about the model, for the provers. Each docstring names the rule of
spec/ it formalises. A statement about every state is a statement about every configuration, since
the configuration is a field of the state (notes/assumptions/1.md). -/

open Sys2Proof Sys2Proof.Machine

/-! ### Encoding -/

/-- Command words of spec/95_test_vectors.md, decoded by the table of spec/30 R95. -/
def Obligations.SpecWordsDecode : Prop :=
  decode 0x0000000000#40 = some .nop ∧
  decode 0x020000017E#40 = some (.emitByte 0x7E#8 true) ∧
  decode 0x0300000064#40 = some (.emitFlag 100#16) ∧
  decode 0x0400FF0002#40 = some (.emitString 0x00FF#16 2#16) ∧
  decode 0x1100000000#40 = some .tmSpace ∧
  decode 0x20145004B0#40 = some (.gsClassify 5200 1200) ∧
  decode 0x34DCD8B9B0#40 = some (.tcRecord (-9000) (-18000)) ∧
  decode 0x3300004161#40 = some (.tcPushpair 0x41#8 0x61#8) ∧
  decode 0x3600F50000#40 = some (.tcExport 245#16) ∧
  decode 0x4100000533#40 = some (.wrreg 0x05#8 0x33#8) ∧
  decode 0x4200080039#40 = some (.wrbuf 8#16 0x39#8)

/-- Decoding an encoded well-formed command gives it back (R92, R93, R95). -/
def Obligations.DecodeOfEncodeIsTheCommand : Prop :=
  ∀ i : Instr, i.wf = true → decode (encode i) = some i

/-- A decoded command is well-formed and encodes back to the same word: a command has one word
(R96, R97). -/
def Obligations.EncodeOfDecodeIsTheWord : Prop :=
  ∀ (w : Word40) (i : Instr), decode w = some i → i.wf = true ∧ encode i = w

/-- A word decodes to the row whose mask and match it satisfies, and at most one row matches
(R95). -/
def Obligations.WordDecodesToItsOneRow : Prop :=
  (∀ (w : Word40) (i : Instr), decode w = some i →
    i.row ∈ opcodeTable ∧ w &&& i.row.mask = i.row.pattern) ∧
  (∀ (w : Word40) (r : OpcodeRow), r ∈ opcodeTable → w &&& r.mask = r.pattern →
    ∃ i, decode w = some i ∧ i.row = r) ∧
  (∀ (w : Word40) (r r' : OpcodeRow), r ∈ opcodeTable → r' ∈ opcodeTable →
    w &&& r.mask = r.pattern → w &&& r'.mask = r'.pattern → r = r')

/-- A word that matches no row raises ILLEGAL_CMD and has no other effect (R96). -/
def Obligations.IllegalWordFaults : Prop :=
  ∀ (s : State) (w : Word40) (rest : List HostEvent),
    s.pending = .command w :: rest →
    (∀ r ∈ opcodeTable, w &&& r.mask ≠ r.pattern) →
    step s = .next
      { s with pending := rest, fault := s.fault ||| 0x01#8,
               responses := s.responses ++ [0x0100000000#40] }

/-! ### The step -/

/-- When the word presented next decodes to `i`, the step is `exec i` on the state with that word
consumed (spec/00 R14, spec/10 R27). -/
def Obligations.StepRunsTheDecodedCommand : Prop :=
  ∀ (s : State) (w : Word40) (rest : List HostEvent) (i : Instr),
    s.pending = .command w :: rest → decode w = some i →
    step s = exec i { s with pending := rest }

/-- With nothing presented the block idles with its state unchanged (spec/70 R310). That idling is a
step is the model's choice (notes/assumptions/4.md). -/
def Obligations.StepIdlesWithoutInput : Prop :=
  ∀ s : State, s.pending = [] → step s = .next s

/-- The word placed by `withFetchWord` is the one the very next step runs. The placing is the
model's (notes/assumptions/4.md): the host presents each word (spec/20 R78). -/
def Obligations.FetchWordRunsNext : Prop :=
  ∀ (s : State) (i : Instr), i.wf = true →
    step (s.withFetchWord 40 (encode i).toNat) = exec i s

/-- Reset gives every register its value, the unspecified ones what the environment supplies, and
keeps `NVB`, `NVC` and the configuration (spec/70 R300, R301, R302). Two clauses are the model's
choices: the environment supplies `W` and `PBUF` as lists from index 0 in which a missing byte counts
as 0 (notes/assumptions/6.md), and the responses and traces are kept (notes/assumptions/5.md). -/
def Obligations.ResetEventGivesResetValues : Prop :=
  ∀ (s : State) (u : Unspecified) (rest : List HostEvent), s.pending = .reset u :: rest →
    ∃ t, step s = .next t ∧
      t.nvb = s.nvb ∧ t.nvc = s.nvc ∧ t.cfg = s.cfg ∧
      t.crc = 0xFFFF#16 ∧ t.ones = 0#3 ∧ t.pol = 0#1 ∧ t.txlvl = 0#1 ∧ t.strat = 0#1 ∧
      t.fault = 0#8 ∧ t.dup = 0#1 ∧ t.freq = 0#32 ∧
      t.lsbHi = u.lsbHi ∧ t.lsbLo = u.lsbLo ∧ t.wc = u.wc ∧
      (∀ i, i < s.cfg.cap → t.w.read i = u.w.getD i 0#8) ∧
      (∀ i, i < s.cfg.pbufSize → t.pbuf.read i = u.pbuf.getD i 0#8) ∧
      t.pending = rest ∧ t.responses = s.responses ∧ t.txtrace = s.txtrace ∧
      t.symtrace = s.symtrace

/-- The launch state: the reset values, arbitrary values in every unspecified location, an arbitrary
persistent store, the given configuration and empty traces (spec/70 R301, R303). Two clauses are the
model's choices: the arrays are supplied as lists from index 0 in which a missing byte counts as 0
(notes/assumptions/6.md), and the responses are a field of the state, empty at launch
(notes/assumptions/7.md). -/
def Obligations.LaunchStateHasResetValues : Prop :=
  ∀ (cfg : Config) (u : Unspecified) (nvb : List Byte) (nvc : Half) (s : State),
    s = State.launch cfg u nvb nvc →
      s.cfg = cfg ∧ s.crc = 0xFFFF#16 ∧ s.ones = 0#3 ∧ s.pol = 0#1 ∧ s.txlvl = 0#1 ∧
      s.strat = 0#1 ∧ s.fault = 0#8 ∧ s.dup = 0#1 ∧ s.freq = 0#32 ∧
      s.lsbHi = u.lsbHi ∧ s.lsbLo = u.lsbLo ∧ s.wc = u.wc ∧ s.nvc = nvc ∧
      (statusFull s = 1#1 ↔ cfg.cap ≤ u.wc.toNat) ∧
      (∀ i, i < cfg.cap → s.w.read i = u.w.getD i 0#8) ∧
      (∀ i, i < cfg.pbufSize → s.pbuf.read i = u.pbuf.getD i 0#8) ∧
      (∀ i, i < cfg.cap → s.nvb.read i = nvb.getD i 0#8) ∧
      s.responses = [] ∧ s.txtrace = [] ∧ s.symtrace = []

/-- The invariant holds at `State.reset`, whose configuration, unspecified values and persistent store
are the model's choices (notes/assumptions/1.md, 2.md, 3.md); `InvAtEveryLaunch` rests on none of
them. -/
def Obligations.InvAtReset : Prop := Inv State.reset

/-- The invariant holds in every launch state (R303) of a configuration that meets the constraints of
R11, whatever the unspecified values and the persistent store; `State.launch` takes their arrays as
lists (notes/assumptions/6.md). -/
def Obligations.InvAtEveryLaunch : Prop :=
  ∀ (cfg : Config) (u : Unspecified) (nvb : List Byte) (nvc : Half), cfg.wf = true →
    Inv (State.launch cfg u nvb nvc)

/-- Every step keeps the invariant: the arrays canonical and in bounds, `ONES` in 0..4 (R22), the
line low (R24), `SYMTRACE` the image of `TXTRACE` (R40), only the eight fault codes (R271), a sticky
bit only where a response carried its code (R276), `FREQ` a known frequency (R26). -/
def Obligations.StepKeepsInv : Prop :=
  ∀ s t : State, Inv s → step s = .next t → Inv t

/-! ### Whole-machine rules -/

/-- The block never stops. Every command, a faulting one included, answers a next state (spec/60 R275:
the block accepts the next command; spec/46 R258: every command terminates; that a fault is a next
state is notes/assumptions/8.md). Every step answers a next state too; with nothing presented this
rests on the model's choice that idling is a step (notes/assumptions/4.md). -/
def Obligations.EveryStepAnswersANextState : Prop :=
  (∀ (i : Instr) (s : State), ∃ t, exec i s = .next t) ∧ ∀ s : State, ∃ t, step s = .next t

/-- One response word per command word: status 0, or a fault code with result 0 (spec/30 R91). -/
def Obligations.OneResponsePerCommand : Prop :=
  ∀ (w : Word40) (s t : State), runWord w s = .next t →
    ∃ r, t.responses = s.responses ++ [r] ∧
      (statusOf r = 0#8 ∨ ∃ c : FaultCode, statusOf r = c.code ∧ resultOf r = 0#32)

/-- `FAULT` is sticky: bit `c-1` is set when a command ends with code `c`, no command clears or
otherwise sets a bit, and reset clears all (spec/10 R31). -/
def Obligations.FaultBitsAreSticky : Prop :=
  (∀ (w : Word40) (s t : State) (r : Word40), runWord w s = .next t →
    t.responses = s.responses ++ [r] →
      (statusOf r = 0#8 → t.fault = s.fault) ∧
      (statusOf r ≠ 0#8 → t.fault = s.fault ||| (1#8 <<< ((statusOf r).toNat - 1)))) ∧
  (∀ (s t : State) (u : Unspecified) (rest : List HostEvent),
    s.pending = .reset u :: rest → step s = .next t → t.fault = 0#8)

/-- A faulting command has no effect but its sticky bit and its response (spec/60 R275). -/
def Obligations.FaultingCommandChangesNothingElse : Prop :=
  ∀ (w : Word40) (s t : State) (r : Word40), runWord w s = .next t →
    t.responses = s.responses ++ [r] → statusOf r ≠ 0#8 →
      ∃ c : FaultCode, r = responseWord c.code 0#32 ∧
        t = { s with fault := s.fault ||| (1#8 <<< (c.code.toNat - 1)),
                     responses := s.responses ++ [r] }

/-- The ten commands that can raise nothing but ILLEGAL_CMD complete in every state
(spec/60 R273). -/
def Obligations.CommandsWithoutChecksSucceed : Prop :=
  ∀ (i : Instr) (s : State), cannotFault i = true →
    ∃ t r, exec i s = .next t ∧ t.responses = s.responses ++ [r] ∧ statusOf r = 0#8 ∧
      t.fault = s.fault

/-- Which commands write which state (spec/10 R21 to R37): all other commands leave it alone. -/
def Obligations.StateChangesOnlyByItsWriters : Prop :=
  ∀ (i : Instr) (s t : State), exec i s = .next t →
    t.cfg = s.cfg ∧ t.pending = s.pending ∧
    (sendsBits i = false → i ≠ .crcReset → t.crc = s.crc) ∧
    (sendsBits i = false → t.ones = s.ones ∧ t.pol = s.pol) ∧
    (emitsSymbols i = false →
      t.txlvl = s.txlvl ∧ t.txtrace = s.txtrace ∧ t.symtrace = s.symtrace) ∧
    ((∀ n v, i ≠ .wrreg n v) → t.strat = s.strat ∧ t.lsbHi = s.lsbHi ∧ t.lsbLo = s.lsbLo) ∧
    ((∀ lat lon, i ≠ .gsClassify lat lon) → t.freq = s.freq) ∧
    (writesDup i = false → t.dup = s.dup) ∧
    (writesTrail i = false → t.w = s.w ∧ t.wc = s.wc) ∧
    (i ≠ .tcStore → t.nvb = s.nvb ∧ t.nvc = s.nvc) ∧
    (writesPbuf i = false → t.pbuf = s.pbuf)

/-- The persistent entries change in no step but that of a TC_STORE, resets included
(spec/10 R36). -/
def Obligations.PersistentStoreChangesOnlyByTcStore : Prop :=
  ∀ s t : State, step s = .next t →
    (∀ (w : Word40) (rest : List HostEvent), s.pending = .command w :: rest →
      decode w ≠ some .tcStore) →
    t.nvb = s.nvb ∧ t.nvc = s.nvc

/-- The trail count never falls and grows by at most one pair, but for TC_GET (spec/10 R25,
spec/46 R256: it never wraps). -/
def Obligations.CountGrowsByAtMostAPair : Prop :=
  ∀ (i : Instr) (s t : State), exec i s = .next t → i ≠ .tcGet →
    s.wc.toNat ≤ t.wc.toNat ∧ t.wc.toNat ≤ s.wc.toNat + 2

/-! ### Frame Bitstream Encoder -/

/-- CRC_RESET writes `CRC` only (spec/40 R123). -/
def Obligations.CrcResetLoadsTheInitialValue : Prop :=
  ∀ s : State, exec .crcReset s =
    .next { s with crc := 0xFFFF#16, responses := s.responses ++ [0x0000000000#40] }

/-- One bit of CRC accumulation: shift right, and fold in 0x8408 when the bit differs from bit 0
(spec/40 R121), stated bit by bit: 0x8408 has bits 3, 10 and 15. -/
def Obligations.CrcBitShiftsAndFolds : Prop :=
  ∀ (b : Bool) (c : Half),
    (b ≠ c.getLsbD 0 → crcBit b c = (c >>> 1) ^^^ 0x8408#16) ∧
    (b = c.getLsbD 0 → crcBit b c = c >>> 1) ∧
    (∀ j, j < 16 → (crcBit b c).getLsbD j =
      (c.getLsbD (j + 1) ^^ ((b ^^ c.getLsbD 0) && (j == 3 || j == 10 || j == 15))))

/-- EMIT_BYTE: eight bits, least significant first, through the CRC, stuffed in data mode and NRZI
coded; 8 to 10 symbols, their number the result, in every state with `ONES` in 0..4 as R22 has it
between commands (spec/40 R124, R122). -/
def Obligations.EmitByteSendsTheByte : Prop :=
  ∀ (v : Byte) (f : Bool) (s : State) (line : List Bool), s.ones.toNat ≤ 4 →
    line = (if f then bitsLsbFirst v else stuff s.ones.toNat (bitsLsbFirst v)) →
    8 ≤ line.length ∧ line.length ≤ 10 ∧
    ∃ t, exec (.emitByte v f) s = .next t ∧
      t.crc = crcBits s.crc (bitsLsbFirst v) ∧
      t.ones.toNat = (if f then 0 else runAfter s.ones.toNat (bitsLsbFirst v)) ∧
      t.pol = polarityAfter s.pol line ∧
      t.symtrace = s.symtrace ++ nrziSymbols s.pol line ∧
      t.txtrace = s.txtrace ++ (nrziSymbols s.pol line).flatMap (symbolEvents s) ∧
      t.txlvl = (if s.strat = 0#1 then 0#1 else s.txlvl) ∧
      t.responses = s.responses ++ [responseWord 0#8 (BitVec.ofNat 32 line.length)] ∧
      t = { s with crc := t.crc, ones := t.ones, pol := t.pol, txlvl := t.txlvl,
                   txtrace := t.txtrace, symtrace := t.symtrace, responses := t.responses }

/-- EMIT_FLAG: `c` times the flag byte in flag mode; `POL` is kept, `ONES` is 0 afterwards if
`c > 0`, the result is `8 * c`, and it equals `c` times EMIT_BYTE 0x7E, 1 (spec/40 R125). -/
def Obligations.EmitFlagSendsFlags : Prop :=
  ∀ (c : Half) (s : State),
    ∃ t, exec (.emitFlag c) s = .next t ∧
      t.crc = crcBits s.crc (dataBits (List.replicate c.toNat 0x7E#8)) ∧
      t.ones = (if c = 0#16 then s.ones else 0#3) ∧
      t.pol = s.pol ∧
      t.symtrace = s.symtrace ++
        (List.replicate c.toNat
          (List.replicate 7 (symbolOf (~~~s.pol)) ++ [symbolOf s.pol])).flatten ∧
      t.responses = s.responses ++ [responseWord 0#8 (BitVec.ofNat 32 (8 * c.toNat))] ∧
      (∃ u, execAll (List.replicate c.toNat (.emitByte 0x7E#8 true)) s = .next u ∧
        t = { u with responses := t.responses }) ∧
      t = { s with crc := t.crc, ones := t.ones, pol := t.pol, txlvl := t.txlvl,
                   txtrace := t.txtrace, symtrace := t.symtrace, responses := t.responses }

/-- EMIT_STRING: a run that leaves PBUF faults before its first bit; a run inside it is sent in data
mode, equals EMIT_BYTE of each byte in turn, and the result is the number of symbols, in every state
with `ONES` in 0..4 as R22 has it between commands (spec/40 R126). -/
def Obligations.EmitStringSendsTheRun : Prop :=
  ∀ (a l : Half) (s : State),
    (s.cfg.pbufSize < a.toNat + l.toNat →
      exec (.emitString a l) s = .next
        { s with fault := s.fault ||| 0x02#8, responses := s.responses ++ [0x0200000000#40] }) ∧
    (a.toNat + l.toNat ≤ s.cfg.pbufSize → s.ones.toNat ≤ 4 →
      ∀ vs : List Byte, vs = (List.range l.toNat).map (fun k => s.pbuf.read (a.toNat + k)) →
      ∀ line : List Bool, line = stuff s.ones.toNat (dataBits vs) →
      ∃ t, exec (.emitString a l) s = .next t ∧
        t.crc = crcBits s.crc (dataBits vs) ∧
        t.ones.toNat = runAfter s.ones.toNat (dataBits vs) ∧
        t.pol = polarityAfter s.pol line ∧
        t.symtrace = s.symtrace ++ nrziSymbols s.pol line ∧
        t.responses = s.responses ++ [responseWord 0#8 (BitVec.ofNat 32 line.length)] ∧
        (∃ u, execAll (vs.map (fun v => .emitByte v false)) s = .next u ∧
          t = { u with responses := t.responses }) ∧
        t = { s with crc := t.crc, ones := t.ones, pol := t.pol, txlvl := t.txlvl,
                     txtrace := t.txtrace, symtrace := t.symtrace, responses := t.responses })

/-- EMIT_CRC: the complement of `CRC` at the start is the result and is sent low byte first, stuffed
as data, with the phase events of its symbols and the line as they leave it; it equals EMIT_BYTE of the
two latched bytes in data mode, the responses apart; `CRC` is 0xF0B8 afterwards, whatever was sent
before, in every state with `ONES` in 0..4 as R22 has it between commands (spec/40 R127, R129). -/
def Obligations.EmitCrcSendsTheTrailer : Prop :=
  ∀ (s : State) (trailerBits line : List Bool), s.ones.toNat ≤ 4 →
    trailerBits = bitsLsbFirst ((~~~s.crc).extractLsb' 0 8) ++
      bitsLsbFirst ((~~~s.crc).extractLsb' 8 8) →
    line = stuff s.ones.toNat trailerBits →
    ∃ t, exec .emitCrc s = .next t ∧
      t.crc = 0xF0B8#16 ∧
      t.ones.toNat = runAfter s.ones.toNat trailerBits ∧
      t.pol = polarityAfter s.pol line ∧
      t.symtrace = s.symtrace ++ nrziSymbols s.pol line ∧
      t.txtrace = s.txtrace ++ (nrziSymbols s.pol line).flatMap (symbolEvents s) ∧
      t.txlvl = (if s.strat = 0#1 then 0#1 else s.txlvl) ∧
      t.responses = s.responses ++ [responseWord 0#8 ((~~~s.crc).setWidth 32)] ∧
      (∃ u, execAll [.emitByte ((~~~s.crc).extractLsb' 0 8) false,
                     .emitByte ((~~~s.crc).extractLsb' 8 8) false] s = .next u ∧
        t = { u with responses := t.responses }) ∧
      t = { s with crc := t.crc, ones := t.ones, pol := t.pol, txlvl := t.txlvl,
                   txtrace := t.txtrace, symtrace := t.symtrace, responses := t.responses }

/-- The receiver of spec/40 R130 recovers the string: in every state with `ONES` in 0..4 (R22), decoding
the symbols EMIT_STRING appends (flip = zero, no flip = one) and destuffing them gives exactly the bits
of the bytes; there are at least `8 * l` symbols. -/
def Obligations.ReceiverRecoversTheString : Prop :=
  ∀ (a l : Half) (s : State), s.ones.toNat ≤ 4 → a.toNat + l.toNat ≤ s.cfg.pbufSize →
    ∃ t syms, exec (.emitString a l) s = .next t ∧ t.symtrace = s.symtrace ++ syms ∧
      destuff s.ones.toNat (nrziDecode (symbolOf s.pol) syms) =
        dataBits ((List.range l.toNat).map (fun k => s.pbuf.read (a.toNat + k))) ∧
      8 * l.toNat ≤ syms.length

/-- In data mode no six symbols in a row hold the tone before them, the run in progress included: this
is said of every command that sends data (EMIT_BYTE with `f` = 0, EMIT_STRING, EMIT_CRC), from a state
with `ONES` in 0..4 (R22). A flag byte gives one flip, six holds and one flip (spec/40 R128). -/
def Obligations.OnlyFlagsHoldSixSymbols : Prop :=
  (∀ (i : Instr) (s t : State) (syms : List Symbol), sendsData i = true → s.ones.toNat ≤ 4 →
    exec i s = .next t → t.symtrace = s.symtrace ++ syms →
    ¬ List.replicate 6 true <:+:
      List.replicate s.ones.toNat true ++ nrziDecode (symbolOf s.pol) syms) ∧
  (∀ (s t : State) (syms : List Symbol), exec (.emitByte 0x7E#8 true) s = .next t →
    t.symtrace = s.symtrace ++ syms →
    nrziDecode (symbolOf s.pol) syms = [false, true, true, true, true, true, true, false])

/-! ### Tone Modulator -/

/-- TM_MARK: one pulse of `T_MARK`, as line levels or as carrier writes (spec/41 R153, R156). -/
def Obligations.TmMarkEmitsOnePulse : Prop :=
  ∀ s : State,
    (s.strat = 0#1 → exec .tmMark s = .next
      { s with txlvl := 0#1,
               txtrace := s.txtrace ++ [.drive 1#1 .tMark, .drive 0#1 .tMark],
               symtrace := s.symtrace ++ [.mark],
               responses := s.responses ++ [0x0000000000#40] }) ∧
    (s.strat = 1#1 → exec .tmMark s = .next
      { s with txtrace := s.txtrace ++ [.regWrite s.cfg.radioLsbAddr s.lsbHi .tMark,
                                        .regWrite s.cfg.radioLsbAddr s.lsbLo .tMark],
               symtrace := s.symtrace ++ [.mark],
               responses := s.responses ++ [0x0000000000#40] })

/-- TM_SPACE: two pulses of `T_SPACE` (spec/41 R154, R157). -/
def Obligations.TmSpaceEmitsTwoPulses : Prop :=
  ∀ s : State,
    (s.strat = 0#1 → exec .tmSpace s = .next
      { s with txlvl := 0#1,
               txtrace := s.txtrace ++ [.drive 1#1 .tSpace, .drive 0#1 .tSpace,
                                        .drive 1#1 .tSpace, .drive 0#1 .tSpace],
               symtrace := s.symtrace ++ [.space],
               responses := s.responses ++ [0x0000000000#40] }) ∧
    (s.strat = 1#1 → exec .tmSpace s = .next
      { s with txtrace := s.txtrace ++ [.regWrite s.cfg.radioLsbAddr s.lsbHi .tSpace,
                                        .regWrite s.cfg.radioLsbAddr s.lsbLo .tSpace,
                                        .regWrite s.cfg.radioLsbAddr s.lsbHi .tSpace,
                                        .regWrite s.cfg.radioLsbAddr s.lsbLo .tSpace],
               symtrace := s.symtrace ++ [.space],
               responses := s.responses ++ [0x0000000000#40] })

/-- The strategy changes the physical events only: from states that differ in the modulation path,
every command but a read of registers 0x03 to 0x06 gives states that differ in the modulation path
only, so the symbols, the responses and all other state agree (spec/41 R151, R152). -/
def Obligations.StrategyChangesOnlyTheModulation : Prop :=
  ∀ (i : Instr) (s s' : State), sameButModulation s s' →
    (∀ n, i = .rdreg n → n.toNat < 3 ∨ 6 < n.toNat) →
    ∃ t t', exec i s = .next t ∧ exec i s' = .next t' ∧ sameButModulation t t'

/-- When `T_SPACE` is half of `T_MARK`, a trace lasts two `T_MARK` for each of its symbols
(spec/41 R154, R161, spec/70 R322). -/
def Obligations.EverySymbolLastsTwoMarkDelays : Prop :=
  ∀ s : State, Inv s → s.cfg.tMark = 2 * s.cfg.tSpace →
    traceLength s.cfg s.txtrace = s.symtrace.length * (2 * s.cfg.tMark)

/-! ### Geofence Selector -/

/-- GS_CLASSIFY: no fix gives the default without polygon testing; otherwise the first region that
holds the point gives its frequency; no region gives the default; `FREQ` and the result are that
frequency (spec/44 R203). -/
def Obligations.FirstMatchingRegionWins : Prop :=
  (∀ s : State, exec (.gsClassify 0 0) s = .next
    { s with freq := s.cfg.defaultFreq,
             responses := s.responses ++ [responseWord 0#8 s.cfg.defaultFreq] }) ∧
  (∀ (lat lon : Int) (s : State) (before after : List Region) (r : Region),
    ¬(lat = 0 ∧ lon = 0) → s.cfg.regions = before ++ r :: after →
    (∀ b ∈ before, inPoly b.vertices lat lon = false) → inPoly r.vertices lat lon = true →
    exec (.gsClassify lat lon) s = .next
      { s with freq := r.freq, responses := s.responses ++ [responseWord 0#8 r.freq] }) ∧
  (∀ (lat lon : Int) (s : State), ¬(lat = 0 ∧ lon = 0) →
    (∀ b ∈ s.cfg.regions, inPoly b.vertices lat lon = false) →
    exec (.gsClassify lat lon) s = .next
      { s with freq := s.cfg.defaultFreq,
               responses := s.responses ++ [responseWord 0#8 s.cfg.defaultFreq] })

/-- The crossing-number test: an edge is counted when the point's longitude lies in its half-open
span and the point lies strictly below the edge's exact latitude there; the point is inside when the
number of counted edges is odd (spec/44 R202). -/
def Obligations.InPolyIsTheOddCrossingTest : Prop :=
  (∀ (lat lon : Int) (vj vi : Vertex),
    edgeCounted lat lon vj vi = true ↔
      ¬(lon < vi.lon ↔ lon < vj.lon) ∧
      (lat : ℚ) < (vi.lat : ℚ) +
        ((vj.lat : ℚ) - (vi.lat : ℚ)) * ((lon : ℚ) - (vi.lon : ℚ)) /
          ((vj.lon : ℚ) - (vi.lon : ℚ))) ∧
  (∀ (vs : List Vertex) (lat lon : Int),
    inPoly vs lat lon = decide ((List.range vs.length).countP (fun i =>
      edgeCounted lat lon (vs.getD ((i + vs.length - 1) % vs.length) ⟨0, 0⟩)
        (vs.getD i ⟨0, 0⟩)) % 2 = 1))

/-- A region of fewer than three vertices never matches (spec/44 R204 (b)). -/
def Obligations.FewerThanThreeVerticesNeverMatch : Prop :=
  ∀ (vs : List Vertex) (lat lon : Int), vs.length < 3 → inPoly vs lat lon = false

/-- The result depends neither on the direction in which the vertices are listed nor on which comes
first: spec/44 R204 (c) for points off the boundary. That it holds of boundary points too goes beyond
R204 (c) and rests on computing them by R202 (notes/assumptions/10.md). -/
def Obligations.VertexOrderAndStartDoNotMatter : Prop :=
  ∀ (vs : List Vertex) (k : Nat) (lat lon : Int),
    inPoly vs.reverse lat lon = inPoly vs lat lon ∧
    inPoly (vs.rotate k) lat lon = inPoly vs lat lon

/-! ### Position Trail Cache -/

/-- TC_GET loads the whole working copy from the persistent one (spec/45 R222). -/
def Obligations.TcGetLoadsTheWorkingCopy : Prop :=
  ∀ s : State, ∃ t, exec .tcGet s = .next t ∧
    (∀ i, i < s.cfg.cap → t.w.read i = s.nvb.read i) ∧
    (∀ i, s.cfg.cap ≤ i → t.w.read i = s.w.read i) ∧
    t.wc = s.nvc ∧
    t.responses = s.responses ++ [responseWord 0#8 (s.nvc.setWidth 32)] ∧
    t = { s with w := t.w, wc := t.wc, responses := t.responses }

/-- TC_STORE writes the whole persistent copy from the working one (spec/45 R224). -/
def Obligations.TcStoreSavesTheWorkingCopy : Prop :=
  ∀ s : State, ∃ t, exec .tcStore s = .next t ∧
    (∀ i, i < s.cfg.cap → t.nvb.read i = s.w.read i) ∧
    (∀ i, s.cfg.cap ≤ i → t.nvb.read i = s.nvb.read i) ∧
    t.nvc = s.wc ∧
    t.responses = s.responses ++ [responseWord 0#8 (s.wc.setWidth 32)] ∧
    t = { s with nvb := t.nvb, nvc := t.nvc, responses := t.responses }

/-- After TC_STORE, `NVB` = `W` and `NVC` = `WC`, both being the working copy from before; after TC_GET,
`W` = `NVB` and `WC` = `NVC`, both being the persistent copy from before; as data (spec/20 R79), in every
state the invariant holds of. -/
def Obligations.GetAndStoreMakeTheCopiesEqual : Prop :=
  ∀ s : State, Inv s →
    (∃ t, exec .tcStore s = .next t ∧ t.nvb = t.w ∧ t.nvc = t.wc ∧ t.w = s.w ∧ t.wc = s.wc) ∧
    (∃ t, exec .tcGet s = .next t ∧ t.w = t.nvb ∧ t.wc = t.nvc ∧ t.nvb = s.nvb ∧ t.nvc = s.nvc)

/-- TC_PUSH: a count of 0xFFFF faults; else the byte is appended below capacity, or the buffer moves
down by one and the byte becomes its last; the new count is the result (spec/45 R221, R223). -/
def Obligations.TcPushAppendsOrEvicts : Prop :=
  ∀ (v : Byte) (s : State),
    (s.wc = 0xFFFF#16 → exec (.tcPush v) s = .next
      { s with fault := s.fault ||| 0x10#8, responses := s.responses ++ [0x0500000000#40] }) ∧
    (s.wc ≠ 0xFFFF#16 → ∃ t, exec (.tcPush v) s = .next t ∧
      t.wc.toNat = s.wc.toNat + 1 ∧
      (s.wc.toNat < s.cfg.cap →
        ∀ i, t.w.read i = if i = s.wc.toNat then v else s.w.read i) ∧
      (s.cfg.cap ≤ s.wc.toNat →
        ∀ i, t.w.read i = if i = s.cfg.cap - 1 then v
          else if i < s.cfg.cap - 1 then s.w.read (i + 1) else s.w.read i) ∧
      t.responses = s.responses ++ [responseWord 0#8 (BitVec.ofNat 32 (s.wc.toNat + 1))] ∧
      t = { s with w := t.w, wc := t.wc, responses := t.responses })

/-- The trail is a first-in-first-out buffer: after any pushes it holds the last `CAP` bytes of what
it held followed by what was pushed, and the count has grown by their number (spec/45 R220, R232,
spec/20 R62). -/
def Obligations.TrailIsABoundedFifo : Prop :=
  ∀ (vs : List Byte) (s : State), s.wc.toNat + vs.length ≤ 0xFFFF →
    ∃ t, execAll (vs.map .tcPush) s = .next t ∧
      trail t = lastOf s.cfg.cap (trail s ++ vs) ∧
      t.wc.toNat = s.wc.toNat + vs.length ∧ t.fault = s.fault

/-- TC_PUSHPAIR, for a configuration that meets R11: an odd count faults; a pair equal to one of the last two recorded pairs is
suppressed and sets `DUP`; else a count above 0xFFFD faults; else both bytes are pushed and `DUP` is
cleared (spec/45 R226). -/
def Obligations.TcPushpairSuppressesDuplicates : Prop :=
  ∀ (p q : Byte) (s : State), s.cfg.wf = true →
    (s.wc.toNat % 2 = 1 → exec (.tcPushpair p q) s = .next
      { s with fault := s.fault ||| 0x80#8, responses := s.responses ++ [0x0800000000#40] }) ∧
    (s.wc.toNat % 2 = 0 → amongLastTwoPairs p q (trail s) → exec (.tcPushpair p q) s = .next
      { s with dup := 1#1,
               responses := s.responses ++ [responseWord 0#8 (s.wc.setWidth 32)] }) ∧
    (s.wc.toNat % 2 = 0 → ¬amongLastTwoPairs p q (trail s) → 0xFFFD < s.wc.toNat → exec (.tcPushpair p q) s = .next
      { s with fault := s.fault ||| 0x10#8, responses := s.responses ++ [0x0500000000#40] }) ∧
    (s.wc.toNat % 2 = 0 → ¬amongLastTwoPairs p q (trail s) → s.wc.toNat ≤ 0xFFFD →
      ∃ t, exec (.tcPushpair p q) s = .next t ∧
        trail t = lastOf s.cfg.cap (trail s ++ [p, q]) ∧
        (∀ i, (trail t).length ≤ i → t.w.read i = s.w.read i) ∧
        t.wc.toNat = s.wc.toNat + 2 ∧ t.dup = 0#1 ∧
        t.responses = s.responses ++ [responseWord 0#8 (BitVec.ofNat 32 (s.wc.toNat + 2))] ∧
        t = { s with w := t.w, wc := t.wc, dup := t.dup, responses := t.responses })

/-- For a configuration that meets R11, pushing a pair that is not a duplicate twice in a row grows the
count by 2, not 4 (spec/45 R232). -/
def Obligations.SamePairTwiceIsRecordedOnce : Prop :=
  ∀ (p q : Byte) (s : State), s.cfg.wf = true → s.wc.toNat % 2 = 0 →
    ¬amongLastTwoPairs p q (trail s) → s.wc.toNat ≤ 0xFFFD →
    ∃ t u, exec (.tcPushpair p q) s = .next t ∧ exec (.tcPushpair p q) t = .next u ∧
      t.wc.toNat = s.wc.toNat + 2 ∧ t.dup = 0#1 ∧
      u.wc = t.wc ∧ u.w = t.w ∧ u.dup = 1#1

/-- TC_RECORD, for a configuration that meets R11: a coordinate out of range faults first; else the body of TC_PUSHPAIR on the quantised
pair, with the pair and the count as the result (spec/45 R228). -/
def Obligations.TcRecordQuantisesAndPushes : Prop :=
  ∀ (lat lon : Int) (s : State) (p q : Byte), s.cfg.wf = true →
    p = BitVec.ofInt 8 ((lat + 9100) / 200 + 33) →
    q = BitVec.ofInt 8 ((lon + 18200) / 400 + 33) →
    ((lat < -9000 ∨ 9000 < lat ∨ lon < -18000 ∨ 18000 < lon) → exec (.tcRecord lat lon) s = .next
      { s with fault := s.fault ||| 0x40#8, responses := s.responses ++ [0x0700000000#40] }) ∧
    (-9000 ≤ lat → lat ≤ 9000 → -18000 ≤ lon → lon ≤ 18000 →
      (s.wc.toNat % 2 = 1 → exec (.tcRecord lat lon) s = .next
        { s with fault := s.fault ||| 0x80#8, responses := s.responses ++ [0x0800000000#40] }) ∧
      (s.wc.toNat % 2 = 0 → amongLastTwoPairs p q (trail s) → exec (.tcRecord lat lon) s = .next
        { s with dup := 1#1,
                 responses := s.responses ++ [responseWord 0#8 (p ++ q ++ s.wc)] }) ∧
      (s.wc.toNat % 2 = 0 → ¬amongLastTwoPairs p q (trail s) → 0xFFFD < s.wc.toNat → exec (.tcRecord lat lon) s = .next
        { s with fault := s.fault ||| 0x10#8, responses := s.responses ++ [0x0500000000#40] }) ∧
      (s.wc.toNat % 2 = 0 → ¬amongLastTwoPairs p q (trail s) → s.wc.toNat ≤ 0xFFFD →
        ∃ t, exec (.tcRecord lat lon) s = .next t ∧
          trail t = lastOf s.cfg.cap (trail s ++ [p, q]) ∧
          (∀ i, (trail t).length ≤ i → t.w.read i = s.w.read i) ∧
          t.wc.toNat = s.wc.toNat + 2 ∧ t.dup = 0#1 ∧
          t.responses = s.responses ++ [responseWord 0#8 (p ++ q ++ t.wc)] ∧
          t = { s with w := t.w, wc := t.wc, dup := t.dup, responses := t.responses }))

/-- The quantiser is the source's formula in exact rational arithmetic, ties up, and its results are
the bytes 33 to 123 (spec/45 R227). -/
def Obligations.QuantiserIsTheRoundedFormula : Prop :=
  (∀ lat : Int, -9000 ≤ lat → lat ≤ 9000 →
    qLat lat = ⌊((lat : ℚ) + 9000) / 200 + 1 / 2⌋ + 33 ∧
    33 ≤ qLat lat ∧ qLat lat ≤ 123 ∧ ((qLatByte lat).toNat : Int) = qLat lat) ∧
  (∀ lon : Int, -18000 ≤ lon → lon ≤ 18000 →
    qLon lon = ⌊((lon : ℚ) + 18000) / 400 + 1 / 2⌋ + 33 ∧
    33 ≤ qLon lon ∧ qLon lon ≤ 123 ∧ ((qLonByte lon).toNat : Int) = qLon lon)

/-- TC_READ reads the raw working buffer, below or above the logical length (spec/45 R229). -/
def Obligations.TcReadReadsTheBuffer : Prop :=
  ∀ (c : Half) (s : State),
    (c.toNat < s.cfg.cap → exec (.tcRead c) s = .next
      { s with responses := s.responses ++ [responseWord 0#8 ((s.w.read c.toNat).setWidth 32)] }) ∧
    (s.cfg.cap ≤ c.toNat → exec (.tcRead c) s = .next
      { s with fault := s.fault ||| 0x08#8, responses := s.responses ++ [0x0400000000#40] })

/-- TC_EXPORT, for a configuration that meets R11: odd count, count beyond the trailer's range, and no room in PBUF fault in that order;
else the trail, oldest first, and the trailer are written, and nothing else of PBUF changes
(spec/45 R230, R231). -/
def Obligations.TcExportWritesTrailAndTrailer : Prop :=
  ∀ (a : Half) (s : State) (n pairs : Nat), s.cfg.wf = true →
    n = min s.wc.toNat s.cfg.cap → pairs = s.wc.toNat / 2 →
    (s.wc.toNat % 2 = 1 → exec (.tcExport a) s = .next
      { s with fault := s.fault ||| 0x80#8, responses := s.responses ++ [0x0800000000#40] }) ∧
    (s.wc.toNat % 2 = 0 → 8189 < pairs → exec (.tcExport a) s = .next
      { s with fault := s.fault ||| 0x20#8, responses := s.responses ++ [0x0600000000#40] }) ∧
    (s.wc.toNat % 2 = 0 → pairs ≤ 8189 → s.cfg.pbufSize < a.toNat + n + 3 →
      exec (.tcExport a) s = .next
        { s with fault := s.fault ||| 0x02#8, responses := s.responses ++ [0x0200000000#40] }) ∧
    (s.wc.toNat % 2 = 0 → pairs ≤ 8189 → a.toNat + n + 3 ≤ s.cfg.pbufSize →
      ∃ t, exec (.tcExport a) s = .next t ∧
        (∀ i, i < n → t.pbuf.read (a.toNat + i) = s.w.read i) ∧
        t.pbuf.read (a.toNat + n) = s.cfg.trailDelim ∧
        (t.pbuf.read (a.toNat + n + 1)).toNat = pairs / 90 + 33 ∧
        (t.pbuf.read (a.toNat + n + 2)).toNat = pairs % 90 + 33 ∧
        pairs / 90 + 33 ≤ 123 ∧ pairs % 90 + 33 ≤ 123 ∧
        (∀ x, x < a.toNat ∨ a.toNat + n + 3 ≤ x → t.pbuf.read x = s.pbuf.read x) ∧
        t.responses = s.responses ++ [responseWord 0#8 (BitVec.ofNat 32 (n + 3))] ∧
        t = { s with pbuf := t.pbuf, responses := t.responses })

/-! ### System commands -/

/-- NOP changes no state and responds 0 (spec/46 R251). -/
def Obligations.NopOnlyResponds : Prop :=
  ∀ s : State, exec .nop s = .next { s with responses := s.responses ++ [0x0000000000#40] }

/-- RDREG answers each register of the map, zero-extended, and faults for every other number
(spec/46 R252). -/
def Obligations.RdregReadsTheRegisterMap : Prop :=
  ∀ s : State,
    (∀ (n : Byte) (x : Nat), (n, x) ∈
        [(0x00#8, s.crc.toNat), (0x01#8, s.ones.toNat), (0x02#8, s.pol.toNat),
         (0x03#8, s.txlvl.toNat), (0x04#8, s.strat.toNat), (0x05#8, s.lsbHi.toNat),
         (0x06#8, s.lsbLo.toNat), (0x07#8, s.fault.toNat),
         (0x08#8, 2 * (if s.cfg.cap ≤ s.wc.toNat then 1 else 0) + s.dup.toNat),
         (0x09#8, s.wc.toNat), (0x0A#8, s.freq.toNat), (0x0B#8, s.nvc.toNat),
         (0x0C#8, s.cfg.cap), (0x0D#8, s.cfg.pbufSize)] →
      exec (.rdreg n) s = .next
        { s with responses := s.responses ++ [responseWord 0#8 (BitVec.ofNat 32 x)] }) ∧
    (∀ n : Byte, 0x0D < n.toNat → exec (.rdreg n) s = .next
      { s with fault := s.fault ||| 0x04#8, responses := s.responses ++ [0x0300000000#40] })

/-- WRREG writes the three control registers and faults for every other number and for a `STRAT`
value above 1 (spec/46 R253). -/
def Obligations.WrregWritesControlRegisters : Prop :=
  ∀ (n v : Byte) (s : State),
    (n = 0x04#8 → v.toNat ≤ 1 → exec (.wrreg n v) s = .next
      { s with strat := BitVec.ofNat 1 v.toNat,
               responses := s.responses ++ [0x0000000000#40] }) ∧
    (n = 0x05#8 → exec (.wrreg n v) s = .next
      { s with lsbHi := v, responses := s.responses ++ [0x0000000000#40] }) ∧
    (n = 0x06#8 → exec (.wrreg n v) s = .next
      { s with lsbLo := v, responses := s.responses ++ [0x0000000000#40] }) ∧
    (((n = 0x04#8 ∧ 1 < v.toNat) ∨ (n ≠ 0x04#8 ∧ n ≠ 0x05#8 ∧ n ≠ 0x06#8)) →
      exec (.wrreg n v) s = .next
        { s with fault := s.fault ||| 0x04#8, responses := s.responses ++ [0x0300000000#40] })

/-- WRBUF writes one PBUF byte, or faults out of range (spec/46 R254). -/
def Obligations.WrbufWritesOneByte : Prop :=
  ∀ (a : Half) (v : Byte) (s : State),
    (s.cfg.pbufSize ≤ a.toNat → exec (.wrbuf a v) s = .next
      { s with fault := s.fault ||| 0x02#8, responses := s.responses ++ [0x0200000000#40] }) ∧
    (a.toNat < s.cfg.pbufSize → ∃ t, exec (.wrbuf a v) s = .next t ∧
      t.pbuf.read a.toNat = v ∧
      (∀ x, x ≠ a.toNat → t.pbuf.read x = s.pbuf.read x) ∧
      t.responses = s.responses ++ [0x0000000000#40] ∧
      t = { s with pbuf := t.pbuf, responses := t.responses })

/-- RDBUF answers one PBUF byte, zero-extended, and changes nothing; out of range it faults
(spec/46 R255). -/
def Obligations.RdbufReadsOneByte : Prop :=
  ∀ (a : Half) (s : State),
    (s.cfg.pbufSize ≤ a.toNat → exec (.rdbuf a) s = .next
      { s with fault := s.fault ||| 0x02#8, responses := s.responses ++ [0x0200000000#40] }) ∧
    (a.toNat < s.cfg.pbufSize → exec (.rdbuf a) s = .next
      { s with responses :=
          s.responses ++ [responseWord 0#8 (BitVec.ofNat 32 (s.pbuf.read a.toNat).toNat)] })

/-! ### The frame format -/

/-- An address field: six callsign characters shifted left by one bit, padded with spaces, and the
SSID byte with the end-of-header marker in bit 0 (spec/43 R182). -/
def Obligations.AddressFieldLayout : Prop :=
  ∀ (call : List Byte) (ssid : Nat) (last : Bool), call.length ≤ 6 → ssid ≤ 15 →
    (addrField call ssid last).length = 7 ∧
    (∀ i, i < call.length → ((addrField call ssid last).getD i 0#8).toNat =
      (call.getD i 0#8).toNat * 2 % 256) ∧
    (∀ i, call.length ≤ i → i < 6 → (addrField call ssid last).getD i 0#8 = 0x40#8) ∧
    ((addrField call ssid last).getD 6 0#8).toNat =
      (0x30 + ssid) * 2 % 256 + (if last then 1 else 0)

/-- Exactly one byte of the address fields of a frame has the end-of-header marker: the last one
sent (spec/43 R183). It is said of every callsign and SSID; for callsigns longer than six characters and
SSIDs above 15, which are outside the format (R181, R182), it rests on the model's computing the field for
them too (notes/assumptions/12.md). -/
def Obligations.OneEndOfHeaderMarker : Prop :=
  ∀ f : FrameParts,
    f.addresses.countP (fun b => b.getLsbD 0) = 1 ∧
    (f.addresses.getLastD 0#8).getLsbD 0 = true
end

