-- ==== Sys2Proof/Laws/State.lean ====
section
/-! SUPPORT. What each named update of the state leaves in each field. -/

namespace Sys2Proof.Machine

/-! ### `answered` -/

@[simp] theorem answered_cfg (r : Word40) (s : State) : (s.answered r).cfg = s.cfg := rfl
@[simp] theorem answered_crc (r : Word40) (s : State) : (s.answered r).crc = s.crc := rfl
@[simp] theorem answered_ones (r : Word40) (s : State) : (s.answered r).ones = s.ones := rfl
@[simp] theorem answered_pol (r : Word40) (s : State) : (s.answered r).pol = s.pol := rfl
@[simp] theorem answered_txlvl (r : Word40) (s : State) : (s.answered r).txlvl = s.txlvl := rfl
@[simp] theorem answered_strat (r : Word40) (s : State) : (s.answered r).strat = s.strat := rfl
@[simp] theorem answered_lsbHi (r : Word40) (s : State) : (s.answered r).lsbHi = s.lsbHi := rfl
@[simp] theorem answered_lsbLo (r : Word40) (s : State) : (s.answered r).lsbLo = s.lsbLo := rfl
@[simp] theorem answered_fault (r : Word40) (s : State) : (s.answered r).fault = s.fault := rfl
@[simp] theorem answered_dup (r : Word40) (s : State) : (s.answered r).dup = s.dup := rfl
@[simp] theorem answered_wc (r : Word40) (s : State) : (s.answered r).wc = s.wc := rfl
@[simp] theorem answered_freq (r : Word40) (s : State) : (s.answered r).freq = s.freq := rfl
@[simp] theorem answered_w (r : Word40) (s : State) : (s.answered r).w = s.w := rfl
@[simp] theorem answered_pbuf (r : Word40) (s : State) : (s.answered r).pbuf = s.pbuf := rfl
@[simp] theorem answered_nvb (r : Word40) (s : State) : (s.answered r).nvb = s.nvb := rfl
@[simp] theorem answered_nvc (r : Word40) (s : State) : (s.answered r).nvc = s.nvc := rfl
@[simp] theorem answered_pending (r : Word40) (s : State) : (s.answered r).pending = s.pending := rfl
@[simp] theorem answered_responses (r : Word40) (s : State) : (s.answered r).responses = s.responses ++ [r] := rfl
@[simp] theorem answered_txtrace (r : Word40) (s : State) : (s.answered r).txtrace = s.txtrace := rfl
@[simp] theorem answered_symtrace (r : Word40) (s : State) : (s.answered r).symtrace = s.symtrace := rfl

/-! ### `faulted` -/

@[simp] theorem faulted_cfg (c : FaultCode) (s : State) : (s.faulted c).cfg = s.cfg := rfl
@[simp] theorem faulted_crc (c : FaultCode) (s : State) : (s.faulted c).crc = s.crc := rfl
@[simp] theorem faulted_ones (c : FaultCode) (s : State) : (s.faulted c).ones = s.ones := rfl
@[simp] theorem faulted_pol (c : FaultCode) (s : State) : (s.faulted c).pol = s.pol := rfl
@[simp] theorem faulted_txlvl (c : FaultCode) (s : State) : (s.faulted c).txlvl = s.txlvl := rfl
@[simp] theorem faulted_strat (c : FaultCode) (s : State) : (s.faulted c).strat = s.strat := rfl
@[simp] theorem faulted_lsbHi (c : FaultCode) (s : State) : (s.faulted c).lsbHi = s.lsbHi := rfl
@[simp] theorem faulted_lsbLo (c : FaultCode) (s : State) : (s.faulted c).lsbLo = s.lsbLo := rfl
@[simp] theorem faulted_fault (c : FaultCode) (s : State) : (s.faulted c).fault = setFault c s.fault := rfl
@[simp] theorem faulted_dup (c : FaultCode) (s : State) : (s.faulted c).dup = s.dup := rfl
@[simp] theorem faulted_wc (c : FaultCode) (s : State) : (s.faulted c).wc = s.wc := rfl
@[simp] theorem faulted_freq (c : FaultCode) (s : State) : (s.faulted c).freq = s.freq := rfl
@[simp] theorem faulted_w (c : FaultCode) (s : State) : (s.faulted c).w = s.w := rfl
@[simp] theorem faulted_pbuf (c : FaultCode) (s : State) : (s.faulted c).pbuf = s.pbuf := rfl
@[simp] theorem faulted_nvb (c : FaultCode) (s : State) : (s.faulted c).nvb = s.nvb := rfl
@[simp] theorem faulted_nvc (c : FaultCode) (s : State) : (s.faulted c).nvc = s.nvc := rfl
@[simp] theorem faulted_pending (c : FaultCode) (s : State) : (s.faulted c).pending = s.pending := rfl
@[simp] theorem faulted_responses (c : FaultCode) (s : State) : (s.faulted c).responses = s.responses ++ [responseWord c.code 0#32] := rfl
@[simp] theorem faulted_txtrace (c : FaultCode) (s : State) : (s.faulted c).txtrace = s.txtrace := rfl
@[simp] theorem faulted_symtrace (c : FaultCode) (s : State) : (s.faulted c).symtrace = s.symtrace := rfl

/-! ### `symbol` -/

@[simp] theorem symbol_cfg (x : Symbol) (s : State) : (s.symbol x).cfg = s.cfg := rfl
@[simp] theorem symbol_crc (x : Symbol) (s : State) : (s.symbol x).crc = s.crc := rfl
@[simp] theorem symbol_ones (x : Symbol) (s : State) : (s.symbol x).ones = s.ones := rfl
@[simp] theorem symbol_pol (x : Symbol) (s : State) : (s.symbol x).pol = s.pol := rfl
@[simp] theorem symbol_txlvl (x : Symbol) (s : State) : (s.symbol x).txlvl = s.txlvl := rfl
@[simp] theorem symbol_strat (x : Symbol) (s : State) : (s.symbol x).strat = s.strat := rfl
@[simp] theorem symbol_lsbHi (x : Symbol) (s : State) : (s.symbol x).lsbHi = s.lsbHi := rfl
@[simp] theorem symbol_lsbLo (x : Symbol) (s : State) : (s.symbol x).lsbLo = s.lsbLo := rfl
@[simp] theorem symbol_fault (x : Symbol) (s : State) : (s.symbol x).fault = s.fault := rfl
@[simp] theorem symbol_dup (x : Symbol) (s : State) : (s.symbol x).dup = s.dup := rfl
@[simp] theorem symbol_wc (x : Symbol) (s : State) : (s.symbol x).wc = s.wc := rfl
@[simp] theorem symbol_freq (x : Symbol) (s : State) : (s.symbol x).freq = s.freq := rfl
@[simp] theorem symbol_w (x : Symbol) (s : State) : (s.symbol x).w = s.w := rfl
@[simp] theorem symbol_pbuf (x : Symbol) (s : State) : (s.symbol x).pbuf = s.pbuf := rfl
@[simp] theorem symbol_nvb (x : Symbol) (s : State) : (s.symbol x).nvb = s.nvb := rfl
@[simp] theorem symbol_nvc (x : Symbol) (s : State) : (s.symbol x).nvc = s.nvc := rfl
@[simp] theorem symbol_pending (x : Symbol) (s : State) : (s.symbol x).pending = s.pending := rfl
@[simp] theorem symbol_responses (x : Symbol) (s : State) : (s.symbol x).responses = s.responses := rfl
@[simp] theorem symbol_txtrace (x : Symbol) (s : State) : (s.symbol x).txtrace = s.txtrace := rfl
@[simp] theorem symbol_symtrace (x : Symbol) (s : State) : (s.symbol x).symtrace = s.symtrace ++ [x] := rfl

/-! ### `presentWord` -/

@[simp] theorem presentWord_cfg (x : Word40) (s : State) : (presentWord x s).cfg = s.cfg := rfl
@[simp] theorem presentWord_crc (x : Word40) (s : State) : (presentWord x s).crc = s.crc := rfl
@[simp] theorem presentWord_ones (x : Word40) (s : State) : (presentWord x s).ones = s.ones := rfl
@[simp] theorem presentWord_pol (x : Word40) (s : State) : (presentWord x s).pol = s.pol := rfl
@[simp] theorem presentWord_txlvl (x : Word40) (s : State) : (presentWord x s).txlvl = s.txlvl := rfl
@[simp] theorem presentWord_strat (x : Word40) (s : State) : (presentWord x s).strat = s.strat := rfl
@[simp] theorem presentWord_lsbHi (x : Word40) (s : State) : (presentWord x s).lsbHi = s.lsbHi := rfl
@[simp] theorem presentWord_lsbLo (x : Word40) (s : State) : (presentWord x s).lsbLo = s.lsbLo := rfl
@[simp] theorem presentWord_fault (x : Word40) (s : State) : (presentWord x s).fault = s.fault := rfl
@[simp] theorem presentWord_dup (x : Word40) (s : State) : (presentWord x s).dup = s.dup := rfl
@[simp] theorem presentWord_wc (x : Word40) (s : State) : (presentWord x s).wc = s.wc := rfl
@[simp] theorem presentWord_freq (x : Word40) (s : State) : (presentWord x s).freq = s.freq := rfl
@[simp] theorem presentWord_w (x : Word40) (s : State) : (presentWord x s).w = s.w := rfl
@[simp] theorem presentWord_pbuf (x : Word40) (s : State) : (presentWord x s).pbuf = s.pbuf := rfl
@[simp] theorem presentWord_nvb (x : Word40) (s : State) : (presentWord x s).nvb = s.nvb := rfl
@[simp] theorem presentWord_nvc (x : Word40) (s : State) : (presentWord x s).nvc = s.nvc := rfl
@[simp] theorem presentWord_pending (x : Word40) (s : State) : (presentWord x s).pending = .command x :: s.pending := rfl
@[simp] theorem presentWord_responses (x : Word40) (s : State) : (presentWord x s).responses = s.responses := rfl
@[simp] theorem presentWord_txtrace (x : Word40) (s : State) : (presentWord x s).txtrace = s.txtrace := rfl
@[simp] theorem presentWord_symtrace (x : Word40) (s : State) : (presentWord x s).symtrace = s.symtrace := rfl

/-! ### Outcomes -/

/-- Responding gives a next state, and which. -/
theorem respond_eq (r : Word) (s : State) : respond r s = .next (s.answered (responseWord 0#8 r)) := rfl

/-- Taking a fault gives a next state, and which. -/
theorem raise_eq (c : FaultCode) (s : State) : raise c s = .next (s.faulted c) := rfl

theorem next_inj {s t : State} (h : (Host.Outcome.next s : Result) = .next t) : s = t := by
  injection h

/-- The reset state is the launch state of the sample configuration with zeros. -/
theorem reset_eq_launch :
    State.reset = State.launch Config.sample ⟨0#8, 0#8, 0#16, [], []⟩ [] 0#16 := rfl

end Sys2Proof.Machine
end

