-- ==== Sys2Proof/Laws/Tone.lean ====
section
/-! SUPPORT. What the Tone Modulator's operations do, once each. -/

namespace Sys2Proof.Machine

/-- The line after a symbol: low under the direct strategy, untouched otherwise. -/
def lineAfter (s : State) : BitVec 1 := if s.strat = 0#1 then 0#1 else s.txlvl

theorem markTone_eq (s : State) :
    markTone s = { s with txlvl := lineAfter s, txtrace := s.txtrace ++ symbolEvents s .mark,
                          symtrace := s.symtrace ++ [.mark] } := by
  by_cases h : s.strat = 0#1 <;>
    simp [markTone, pulse, phase, State.symbol, symbolEvents, lineAfter, h]

theorem spaceTone_eq (s : State) :
    spaceTone s = { s with txlvl := lineAfter s, txtrace := s.txtrace ++ symbolEvents s .space,
                           symtrace := s.symtrace ++ [.space] } := by
  by_cases h : s.strat = 0#1 <;>
    simp [spaceTone, pulse, phase, State.symbol, symbolEvents, lineAfter, h]

/-- One symbol: its events under the strategy in force, the symbol itself, and the line; nothing
else changes. -/
theorem emitSymbol_eq (p : BitVec 1) (s : State) :
    emitSymbol p s = { s with txlvl := lineAfter s,
                              txtrace := s.txtrace ++ symbolEvents s (symbolOf p),
                              symtrace := s.symtrace ++ [symbolOf p] } := by
  unfold emitSymbol symbolOf
  split
  · exact markTone_eq s
  · exact spaceTone_eq s

/-! ### What a tone leaves alone, field by field -/

@[simp] theorem markTone_cfg (s : State) : (markTone s).cfg = s.cfg := by
  rw [markTone_eq]

@[simp] theorem markTone_crc (s : State) : (markTone s).crc = s.crc := by
  rw [markTone_eq]

@[simp] theorem markTone_ones (s : State) : (markTone s).ones = s.ones := by
  rw [markTone_eq]

@[simp] theorem markTone_pol (s : State) : (markTone s).pol = s.pol := by
  rw [markTone_eq]

@[simp] theorem markTone_strat (s : State) : (markTone s).strat = s.strat := by
  rw [markTone_eq]

@[simp] theorem markTone_lsbHi (s : State) : (markTone s).lsbHi = s.lsbHi := by
  rw [markTone_eq]

@[simp] theorem markTone_lsbLo (s : State) : (markTone s).lsbLo = s.lsbLo := by
  rw [markTone_eq]

@[simp] theorem markTone_fault (s : State) : (markTone s).fault = s.fault := by
  rw [markTone_eq]

@[simp] theorem markTone_dup (s : State) : (markTone s).dup = s.dup := by
  rw [markTone_eq]

@[simp] theorem markTone_wc (s : State) : (markTone s).wc = s.wc := by
  rw [markTone_eq]

@[simp] theorem markTone_freq (s : State) : (markTone s).freq = s.freq := by
  rw [markTone_eq]

@[simp] theorem markTone_w (s : State) : (markTone s).w = s.w := by
  rw [markTone_eq]

@[simp] theorem markTone_pbuf (s : State) : (markTone s).pbuf = s.pbuf := by
  rw [markTone_eq]

@[simp] theorem markTone_nvb (s : State) : (markTone s).nvb = s.nvb := by
  rw [markTone_eq]

@[simp] theorem markTone_nvc (s : State) : (markTone s).nvc = s.nvc := by
  rw [markTone_eq]

@[simp] theorem markTone_pending (s : State) : (markTone s).pending = s.pending := by
  rw [markTone_eq]

@[simp] theorem markTone_responses (s : State) : (markTone s).responses = s.responses := by
  rw [markTone_eq]

@[simp] theorem spaceTone_cfg (s : State) : (spaceTone s).cfg = s.cfg := by
  rw [spaceTone_eq]

@[simp] theorem spaceTone_crc (s : State) : (spaceTone s).crc = s.crc := by
  rw [spaceTone_eq]

@[simp] theorem spaceTone_ones (s : State) : (spaceTone s).ones = s.ones := by
  rw [spaceTone_eq]

@[simp] theorem spaceTone_pol (s : State) : (spaceTone s).pol = s.pol := by
  rw [spaceTone_eq]

@[simp] theorem spaceTone_strat (s : State) : (spaceTone s).strat = s.strat := by
  rw [spaceTone_eq]

@[simp] theorem spaceTone_lsbHi (s : State) : (spaceTone s).lsbHi = s.lsbHi := by
  rw [spaceTone_eq]

@[simp] theorem spaceTone_lsbLo (s : State) : (spaceTone s).lsbLo = s.lsbLo := by
  rw [spaceTone_eq]

@[simp] theorem spaceTone_fault (s : State) : (spaceTone s).fault = s.fault := by
  rw [spaceTone_eq]

@[simp] theorem spaceTone_dup (s : State) : (spaceTone s).dup = s.dup := by
  rw [spaceTone_eq]

@[simp] theorem spaceTone_wc (s : State) : (spaceTone s).wc = s.wc := by
  rw [spaceTone_eq]

@[simp] theorem spaceTone_freq (s : State) : (spaceTone s).freq = s.freq := by
  rw [spaceTone_eq]

@[simp] theorem spaceTone_w (s : State) : (spaceTone s).w = s.w := by
  rw [spaceTone_eq]

@[simp] theorem spaceTone_pbuf (s : State) : (spaceTone s).pbuf = s.pbuf := by
  rw [spaceTone_eq]

@[simp] theorem spaceTone_nvb (s : State) : (spaceTone s).nvb = s.nvb := by
  rw [spaceTone_eq]

@[simp] theorem spaceTone_nvc (s : State) : (spaceTone s).nvc = s.nvc := by
  rw [spaceTone_eq]

@[simp] theorem spaceTone_pending (s : State) : (spaceTone s).pending = s.pending := by
  rw [spaceTone_eq]

@[simp] theorem spaceTone_responses (s : State) : (spaceTone s).responses = s.responses := by
  rw [spaceTone_eq]

end Sys2Proof.Machine
end

