-- ==== Sys2Proof/Laws/Encoder.lean ====
section
/-! SUPPORT. What the bit step of the Frame Bitstream Encoder does, and how runs of bits compose. -/

namespace Sys2Proof.Machine

/-- The parts of the state the encoder never touches. -/
theorem fbeBit_frame (f b : Bool) (s : State) :
    fbeBit f b s =
      { s with crc := crcBit b s.crc, ones := (fbeBit f b s).ones, pol := (fbeBit f b s).pol,
               txlvl := lineAfter s, txtrace := (fbeBit f b s).txtrace,
               symtrace := (fbeBit f b s).symtrace } := by
  cases b <;> cases f <;> simp only [fbeBit, emitSymbol_eq, lineAfter]
  all_goals repeat' split
  all_goals simp_all

/-- A zero bit, in either mode: flip, one symbol at the new polarity, run counter cleared. -/
theorem fbeBit_zero (f : Bool) (s : State) :
    (fbeBit f false s).ones = 0#3 ∧ (fbeBit f false s).pol = ~~~s.pol ∧
    (fbeBit f false s).symtrace = s.symtrace ++ [symbolOf (~~~s.pol)] := by
  simp [fbeBit, emitSymbol_eq]

/-- A one bit in flag mode: one symbol at the unchanged polarity, run counter cleared. -/
theorem fbeBit_one_flag (s : State) :
    (fbeBit true true s).ones = 0#3 ∧ (fbeBit true true s).pol = s.pol ∧
    (fbeBit true true s).symtrace = s.symtrace ++ [symbolOf s.pol] := by
  simp [fbeBit, emitSymbol_eq]

/-- The run counter reaches the threshold exactly from 4. -/
theorem fifth_iff (k : BitVec 3) : (k + 1#3).toNat = stuffThreshold ↔ k = 4#3 := by
  revert k; decide

/-- A one bit in data mode that is not the fifth of its run. -/
theorem fbeBit_one_counted (s : State) (h : s.ones ≠ 4#3) :
    (fbeBit false true s).ones = s.ones + 1#3 ∧ (fbeBit false true s).pol = s.pol ∧
    (fbeBit false true s).symtrace = s.symtrace ++ [symbolOf s.pol] := by
  simp only [fbeBit, emitSymbol_eq, if_true, fifth_iff, h, if_false, Bool.false_eq_true, and_self]

/-- The fifth one bit of a run in data mode: its symbol, then the stuffed one. -/
theorem fbeBit_one_stuffed (s : State) (h : s.ones = 4#3) :
    (fbeBit false true s).ones = 0#3 ∧ (fbeBit false true s).pol = ~~~s.pol ∧
    (fbeBit false true s).symtrace = s.symtrace ++ [symbolOf s.pol, symbolOf (~~~s.pol)] := by
  simp only [fbeBit, emitSymbol_eq, if_true, fifth_iff, h, if_false, Bool.false_eq_true, and_self,
    List.append_assoc, List.cons_append, List.nil_append]

theorem emitBits_append (f : Bool) (as bs : List Bool) (s : State) :
    emitBits f (as ++ bs) s = emitBits f bs (emitBits f as s) := by
  induction as generalizing s with
  | nil => rfl
  | cons a as ih => exact ih (fbeBit f a s)

theorem emitBytes_append (f : Bool) (us vs : List Byte) (s : State) :
    emitBytes f (us ++ vs) s = emitBytes f vs (emitBytes f us s) := by
  simp [emitBytes, emitBits_append]

/-- The encoder over any bits: the parts of the state it never touches. -/
theorem emitBits_frame (f : Bool) (bs : List Bool) (s : State) :
    emitBits f bs s =
      { s with crc := (emitBits f bs s).crc, ones := (emitBits f bs s).ones,
               pol := (emitBits f bs s).pol, txlvl := (emitBits f bs s).txlvl,
               txtrace := (emitBits f bs s).txtrace, symtrace := (emitBits f bs s).symtrace } := by
  induction bs generalizing s with
  | nil => rfl
  | cons b bs ih =>
    rw [emitBits, ih (fbeBit f b s), fbeBit_frame f b s]

theorem emitBytes_frame (f : Bool) (vs : List Byte) (s : State) :
    emitBytes f vs s =
      { s with crc := (emitBytes f vs s).crc, ones := (emitBytes f vs s).ones,
               pol := (emitBytes f vs s).pol, txlvl := (emitBytes f vs s).txlvl,
               txtrace := (emitBytes f vs s).txtrace, symtrace := (emitBytes f vs s).symtrace } :=
  emitBits_frame f _ s

theorem emitBits_crc (f : Bool) (bs : List Bool) (s : State) :
    (emitBits f bs s).crc = crcBits s.crc bs := by
  induction bs generalizing s with
  | nil => rfl
  | cons b bs ih =>
    rw [emitBits, ih, fbeBit_frame f b s]
    rfl

/-! ### What the encoder leaves alone, field by field -/

@[simp] theorem emitBytes_cfg (f : Bool) (vs : List Byte) (s : State) :
    (emitBytes f vs s).cfg = s.cfg := by
  rw [emitBytes_frame]

@[simp] theorem emitBytes_strat (f : Bool) (vs : List Byte) (s : State) :
    (emitBytes f vs s).strat = s.strat := by
  rw [emitBytes_frame]

@[simp] theorem emitBytes_lsbHi (f : Bool) (vs : List Byte) (s : State) :
    (emitBytes f vs s).lsbHi = s.lsbHi := by
  rw [emitBytes_frame]

@[simp] theorem emitBytes_lsbLo (f : Bool) (vs : List Byte) (s : State) :
    (emitBytes f vs s).lsbLo = s.lsbLo := by
  rw [emitBytes_frame]

@[simp] theorem emitBytes_fault (f : Bool) (vs : List Byte) (s : State) :
    (emitBytes f vs s).fault = s.fault := by
  rw [emitBytes_frame]

@[simp] theorem emitBytes_dup (f : Bool) (vs : List Byte) (s : State) :
    (emitBytes f vs s).dup = s.dup := by
  rw [emitBytes_frame]

@[simp] theorem emitBytes_wc (f : Bool) (vs : List Byte) (s : State) :
    (emitBytes f vs s).wc = s.wc := by
  rw [emitBytes_frame]

@[simp] theorem emitBytes_freq (f : Bool) (vs : List Byte) (s : State) :
    (emitBytes f vs s).freq = s.freq := by
  rw [emitBytes_frame]

@[simp] theorem emitBytes_w (f : Bool) (vs : List Byte) (s : State) :
    (emitBytes f vs s).w = s.w := by
  rw [emitBytes_frame]

@[simp] theorem emitBytes_pbuf (f : Bool) (vs : List Byte) (s : State) :
    (emitBytes f vs s).pbuf = s.pbuf := by
  rw [emitBytes_frame]

@[simp] theorem emitBytes_nvb (f : Bool) (vs : List Byte) (s : State) :
    (emitBytes f vs s).nvb = s.nvb := by
  rw [emitBytes_frame]

@[simp] theorem emitBytes_nvc (f : Bool) (vs : List Byte) (s : State) :
    (emitBytes f vs s).nvc = s.nvc := by
  rw [emitBytes_frame]

@[simp] theorem emitBytes_pending (f : Bool) (vs : List Byte) (s : State) :
    (emitBytes f vs s).pending = s.pending := by
  rw [emitBytes_frame]

@[simp] theorem emitBytes_responses (f : Bool) (vs : List Byte) (s : State) :
    (emitBytes f vs s).responses = s.responses := by
  rw [emitBytes_frame]

end Sys2Proof.Machine
end

