-- ==== Sys2Proof/Laws/Encoding.lean ====
section
/-! SUPPORT. The fields of command words and response words: what each extraction gives back. -/

namespace Sys2Proof

theorem encode_opcode (i : Instr) : (encode i).extractLsb' 32 8 = i.opcode := by
  ext j hj
  have h1 : 32 + j < 40 := by omega
  simp [encode, h1, BitVec.getLsbD_eq_getElem hj]

theorem encode_operands (i : Instr) : (encode i).extractLsb' 0 32 = i.operands := by
  ext j hj
  simp [encode, hj]
  omega

/-- Decoding an encoded command reads its operand field under its opcode. -/
theorem decode_encode_fields (i : Instr) :
    decode (encode i) = decodeFields i.opcode.toNat i.operands := by
  rw [decode, encode_opcode, encode_operands]

/-- A coordinate of a well-formed command is read back from its field. -/
theorem coordField_toInt (x : Int) (h : fitsSigned16 x = true) : (coordField x).toInt = x := by
  simp only [fitsSigned16, Bool.and_eq_true, decide_eq_true_eq] at h
  simp only [coordField, BitVec.toInt_ofInt]
  rw [Int.bmod_eq_of_le] <;> omega

/-- A 16-bit field reads as a coordinate that fits it, and encodes back to itself. -/
theorem coordField_of_toInt (y : Half) :
    fitsSigned16 y.toInt = true ∧ coordField y.toInt = y := by
  have h1 := BitVec.toInt_lt (x := y)
  have h2 := BitVec.le_toInt y
  refine ⟨?_, by simp [coordField]⟩
  simp only [fitsSigned16, Bool.and_eq_true, decide_eq_true_eq]
  omega

namespace Machine

@[simp] theorem statusOf_responseWord (c : Byte) (r : Word) : statusOf (responseWord c r) = c := by
  ext j hj
  have h1 : 32 + j < 40 := by omega
  simp [statusOf, responseWord, h1, BitVec.getLsbD_eq_getElem hj]

@[simp] theorem resultOf_responseWord (c : Byte) (r : Word) : resultOf (responseWord c r) = r := by
  ext j hj
  simp [resultOf, responseWord, hj]
  omega

/-- A fault code is one of 1 to 8, never the success status. -/
theorem code_ne_zero (c : FaultCode) : c.code ≠ 0#8 := by
  cases c <;> decide

end Machine

end Sys2Proof
end

