-- ==== Sys2Proof/Laws/LineCode.lean ====
section
/-! SUPPORT. The line code as a whole: stuffing, NRZI and their inverses as functions on lists, and
the encoder over any list of bits told in their terms. -/

namespace Sys2Proof.Machine

/-! ### Stuffing and NRZI -/

theorem symbolOf_not (p : BitVec 1) : symbolOf (~~~p) ≠ symbolOf p := by revert p; decide

theorem polarityAfter_append (p : BitVec 1) (as bs : List Bool) :
    polarityAfter p (as ++ bs) = polarityAfter (polarityAfter p as) bs := by
  induction as generalizing p with
  | nil => rfl
  | cons a as ih => cases a <;> simp [polarityAfter, ih]

theorem nrziSymbols_append (p : BitVec 1) (as bs : List Bool) :
    nrziSymbols p (as ++ bs) = nrziSymbols p as ++ nrziSymbols (polarityAfter p as) bs := by
  induction as generalizing p with
  | nil => rfl
  | cons a as ih => cases a <;> simp [nrziSymbols, polarityAfter, ih]

@[simp] theorem length_nrziSymbols (p : BitVec 1) (bs : List Bool) :
    (nrziSymbols p bs).length = bs.length := by
  induction bs generalizing p with
  | nil => rfl
  | cons b bs ih => cases b <;> simp [nrziSymbols, ih]

/-- NRZI decoding undoes NRZI coding. -/
theorem nrziDecode_nrziSymbols (p : BitVec 1) (bs : List Bool) :
    nrziDecode (symbolOf p) (nrziSymbols p bs) = bs := by
  induction bs generalizing p with
  | nil => rfl
  | cons b bs ih => cases b <;> simp [nrziSymbols, nrziDecode, ih, symbolOf_not]

/-- Stuffing adds bits, at most one for every five. -/
theorem length_stuff (k : Nat) (bs : List Bool) (h : k ≤ 4) :
    bs.length ≤ (stuff k bs).length ∧ 5 * (stuff k bs).length ≤ 6 * bs.length + k := by
  induction bs generalizing k with
  | nil => simp [stuff]
  | cons b bs ih =>
    cases b
    · have := ih 0 (by omega)
      simp only [stuff, List.length_cons]
      omega
    · simp only [stuff]
      by_cases hk : k + 1 = stuffThreshold
      · rw [if_pos hk]
        have hk' : k + 1 = 5 := hk
        have := ih 0 (by omega)
        simp only [List.length_cons]
        omega
      · rw [if_neg hk]
        have hk' : ¬k + 1 = 5 := hk
        have := ih (k + 1) (by omega)
        simp only [List.length_cons]
        omega

/-- Destuffing undoes stuffing. -/
theorem destuff_stuff (k : Nat) (bs : List Bool) (h : k ≤ 4) : destuff k (stuff k bs) = bs := by
  induction bs generalizing k with
  | nil => rfl
  | cons b bs ih =>
    cases b
    · have : ¬5 ≤ k := by omega
      simp [stuff, destuff, stuffThreshold, this, ih]
    · simp only [stuff]
      by_cases hk : k + 1 = stuffThreshold
      · rw [if_pos hk]
        simp [destuff, hk, ih]
      · rw [if_neg hk]
        have hk' : ¬k + 1 = 5 := hk
        simp [destuff, ih (k + 1) (by omega)]

@[simp] theorem length_dataBits (vs : List Byte) : (dataBits vs).length = 8 * vs.length := by
  induction vs with
  | nil => rfl
  | cons v vs ih =>
    have : (bitsLsbFirst v).length = 8 := rfl
    simp only [dataBits, List.flatMap_cons, List.length_append, List.length_cons] at ih ⊢
    omega

theorem crcBits_append (c : Half) (as bs : List Bool) :
    crcBits c (as ++ bs) = crcBits (crcBits c as) bs := List.foldl_append ..

/-! ### The encoder over any bits -/

/-- The events of a symbol depend on the modulation path only. -/
theorem symbolEvents_congr {s t : State} (h1 : t.strat = s.strat) (h2 : t.lsbHi = s.lsbHi)
    (h3 : t.lsbLo = s.lsbLo) (h4 : t.cfg = s.cfg) : symbolEvents t = symbolEvents s := by
  funext x
  cases x <;> simp [symbolEvents, h1, h2, h3, h4]

/-- A bit step appends some symbols and their events. -/
theorem fbeBit_events (f b : Bool) (s : State) :
    ∃ xs, (fbeBit f b s).symtrace = s.symtrace ++ xs ∧
      (fbeBit f b s).txtrace = s.txtrace ++ xs.flatMap (symbolEvents s) := by
  cases b
  · refine ⟨_, (fbeBit_zero f s).2.2, ?_⟩
    simp only [fbeBit, emitSymbol_eq, Bool.false_eq_true, if_false, List.flatMap_singleton]
    rw [symbolEvents_congr] <;> rfl
  · cases f
    · by_cases h : s.ones = 4#3
      · refine ⟨_, (fbeBit_one_stuffed s h).2.2, ?_⟩
        simp only [fbeBit, emitSymbol_eq, if_true, fifth_iff, h, if_false, Bool.false_eq_true]
        simp only [List.append_assoc, List.flatMap_cons, List.flatMap_nil, List.append_nil]
        rw [symbolEvents_congr, symbolEvents_congr] <;> rfl
      · refine ⟨_, (fbeBit_one_counted s h).2.2, ?_⟩
        simp only [fbeBit, emitSymbol_eq, if_true, fifth_iff, h, if_false, Bool.false_eq_true,
          List.flatMap_singleton]
        rw [symbolEvents_congr] <;> rfl
    · refine ⟨_, (fbeBit_one_flag s).2.2, ?_⟩
      simp only [fbeBit, emitSymbol_eq, if_true, List.flatMap_singleton]
      rw [symbolEvents_congr] <;> rfl

/-- The encoder appends some symbols and their events, and leaves the line as a symbol does. -/
theorem emitBits_events (f : Bool) (bs : List Bool) (s : State) :
    ∃ xs, (emitBits f bs s).symtrace = s.symtrace ++ xs ∧
      (emitBits f bs s).txtrace = s.txtrace ++ xs.flatMap (symbolEvents s) ∧
      (emitBits f bs s).txlvl = if bs = [] then s.txlvl else lineAfter s := by
  induction bs generalizing s with
  | nil => exact ⟨[], by simp [emitBits]⟩
  | cons b bs ih =>
    obtain ⟨xs, h1, h2, h3⟩ := ih (fbeBit f b s)
    obtain ⟨ys, h4, h5⟩ := fbeBit_events f b s
    have hf := fbeBit_frame f b s
    have hs : symbolEvents (fbeBit f b s) = symbolEvents s := by rw [hf]; rfl
    refine ⟨ys ++ xs, by rw [emitBits, h1, h4, List.append_assoc],
      by rw [emitBits, h2, h5, hs, List.flatMap_append, List.append_assoc], ?_⟩
    rw [emitBits, h3, hf]
    simp only [lineAfter]
    by_cases hz : s.strat = 0#1 <;> simp [hz]

/-- The symbols appended determine the events appended. -/
theorem emitBits_txtrace (f : Bool) (bs : List Bool) (s : State) (ys : List Symbol)
    (h : (emitBits f bs s).symtrace = s.symtrace ++ ys) :
    (emitBits f bs s).txtrace = s.txtrace ++ ys.flatMap (symbolEvents s) := by
  obtain ⟨xs, h1, h2, -⟩ := emitBits_events f bs s
  rw [h2, List.append_cancel_left (h1.symm.trans h)]

/-- Data mode is stuffing followed by NRZI; the run counter stays in 0..4. -/
theorem emitBits_data (bs : List Bool) (s : State) (h : s.ones.toNat ≤ 4) :
    (emitBits false bs s).ones.toNat = runAfter s.ones.toNat bs ∧
    runAfter s.ones.toNat bs ≤ 4 ∧
    (emitBits false bs s).pol = polarityAfter s.pol (stuff s.ones.toNat bs) ∧
    (emitBits false bs s).symtrace =
      s.symtrace ++ nrziSymbols s.pol (stuff s.ones.toNat bs) := by
  induction bs generalizing s with
  | nil => simp [emitBits, runAfter, stuff, polarityAfter, nrziSymbols, h]
  | cons b bs ih =>
    cases b
    · obtain ⟨h1, h2, h3⟩ := fbeBit_zero false s
      have := ih (fbeBit false false s) (by rw [h1]; decide)
      rw [h1, h2, h3] at this
      simpa [emitBits, runAfter, stuff, polarityAfter, nrziSymbols] using this
    · by_cases h4 : s.ones = 4#3
      · obtain ⟨h1, h2, h3⟩ := fbeBit_one_stuffed s h4
        have := ih (fbeBit false true s) (by rw [h1]; decide)
        rw [h1, h2, h3] at this
        simpa [emitBits, runAfter, stuff, polarityAfter, nrziSymbols, h4, stuffThreshold] using this
      · obtain ⟨h1, h2, h3⟩ := fbeBit_one_counted s h4
        have hlt : s.ones.toNat < 4 := by
          have : s.ones.toNat ≠ 4 := fun e => h4 (BitVec.eq_of_toNat_eq (by simpa using e))
          omega
        have h5 : (s.ones + 1#3).toNat = s.ones.toNat + 1 := by simp; omega
        have := ih (fbeBit false true s) (by rw [h1, h5]; omega)
        rw [h1, h2, h3, h5] at this
        have h6 : ¬(s.ones.toNat + 1 = stuffThreshold) := by simp [stuffThreshold]; omega
        simpa [emitBits, runAfter, stuff, polarityAfter, nrziSymbols, h6] using this

/-- Flag mode is NRZI alone; the run counter is 0 after any bit. -/
theorem emitBits_flag (bs : List Bool) (s : State) :
    (emitBits true bs s).ones = (if bs = [] then s.ones else 0#3) ∧
    (emitBits true bs s).pol = polarityAfter s.pol bs ∧
    (emitBits true bs s).symtrace = s.symtrace ++ nrziSymbols s.pol bs := by
  induction bs generalizing s with
  | nil => simp [emitBits, polarityAfter, nrziSymbols]
  | cons b bs ih =>
    have := ih (fbeBit true b s)
    cases b
    · obtain ⟨h1, h2, h3⟩ := fbeBit_zero true s
      rw [h1, h2, h3] at this
      simpa [emitBits, polarityAfter, nrziSymbols] using this
    · obtain ⟨h1, h2, h3⟩ := fbeBit_one_flag s
      rw [h1, h2, h3] at this
      simpa [emitBits, polarityAfter, nrziSymbols] using this

/-! ### Runs of EMIT_BYTE -/

/-- The encoder does not look at the responses. -/
theorem emitBits_responses (f : Bool) (bs : List Bool) (s : State) (r : List Word40) :
    emitBits f bs { s with responses := r } = { emitBits f bs s with responses := r } := by
  induction bs generalizing s with
  | nil => rfl
  | cons b bs ih =>
    simp only [emitBits]
    rw [← ih]
    congr 1
    cases b <;> cases f <;> simp only [fbeBit, emitSymbol_eq]
    all_goals first
      | rfl
      | (by_cases h : (s.ones + 1#3).toNat = stuffThreshold <;>
          simp only [h, if_true, if_false, Bool.false_eq_true] <;> rfl)

/-- EMIT_BYTE of each byte in turn is the encoder over all the bytes, the responses apart. -/
theorem execAll_emitByte (f : Bool) (vs : List Byte) (s : State) :
    ∃ u, execAll (vs.map (fun v => .emitByte v f)) s = .next u ∧
      { u with responses := s.responses } = emitBytes f vs s := by
  suffices gen : ∀ (vs : List Byte) (s : State) (r : List Word40),
      ∃ u, execAll (vs.map (fun v => .emitByte v f)) { s with responses := r } = .next u ∧
        { u with responses := s.responses } = emitBytes f vs s from gen vs s s.responses
  intro vs
  induction vs with
  | nil => exact fun s r => ⟨_, rfl, rfl⟩
  | cons v vs ih =>
    intro s r
    obtain ⟨u, h1, h2⟩ := ih (emitBytes f [v] s)
      (r ++ [responseWord 0#8 (symbolsSince s (emitBytes f [v] s))])
    refine ⟨u, ?_, ?_⟩
    · rw [← h1, List.map_cons, execAll]
      simp only [exec, execEmitByte, emitAndCount, respond, State.answered, emitBytes,
        emitBits_responses]
      rfl
    · rw [← emitBytes_append, emitBytes_frame f [v] s] at h2
      exact h2

/-! ### Phase traces -/

/-- A trace with one more symbol's events reads as one more symbol. -/
theorem symbolsOf_append_symbolEvents (s : State) (x : Machine.Symbol) (es : List PhaseEvent)
    (xs : List Machine.Symbol) (h : symbolsOf es = some xs) :
    symbolsOf (es ++ symbolEvents s x) = some (xs ++ [x]) := by
  induction es using symbolsOf.induct generalizing xs with
  | case1 =>
    obtain rfl : [] = xs := by simpa [symbolsOf] using h
    cases x <;> by_cases hs : s.strat = 0#1 <;> simp [symbolEvents, hs, symbolsOf]
  | case2 l1 l2 rest hl ih =>
    simp only [symbolsOf, hl, and_self, if_true, Option.map_eq_some_iff] at h
    obtain ⟨a, h1, rfl⟩ := h
    simp [symbolsOf, hl, ih _ h1]
  | case3 l1 l2 rest hl => simp [symbolsOf, hl] at h
  | case4 _ _ _ _ rest ih =>
    simp only [symbolsOf, Option.map_eq_some_iff] at h
    obtain ⟨a, h1, rfl⟩ := h
    simp [symbolsOf, ih _ h1]
  | case5 l1 l2 l3 l4 rest hl ih =>
    simp only [symbolsOf, hl, and_self, if_true, Option.map_eq_some_iff] at h
    obtain ⟨a, h1, rfl⟩ := h
    simp [symbolsOf, hl, ih _ h1]
  | case6 l1 l2 l3 l4 rest hl => simp [symbolsOf, hl] at h
  | case7 _ _ _ _ _ _ _ _ rest ih =>
    simp only [symbolsOf, Option.map_eq_some_iff] at h
    obtain ⟨a, h1, rfl⟩ := h
    simp [symbolsOf, ih _ h1]
  | case8 t h1 h2 h3 h4 h5 => rw [symbolsOf] at h <;> first | simp at h | assumption

theorem symbolsOf_append (s : State) (ys : List Machine.Symbol) (es : List PhaseEvent)
    (xs : List Machine.Symbol) (h : symbolsOf es = some xs) :
    symbolsOf (es ++ ys.flatMap (symbolEvents s)) = some (xs ++ ys) := by
  induction ys generalizing es xs with
  | nil => simpa using h
  | cons y ys ih => simpa using ih _ _ (symbolsOf_append_symbolEvents s y es xs h)

end Sys2Proof.Machine
end

