-- ==== Sys2Proof/Laws/Memory.lean ====
section
/-! SUPPORT. The laws of the byte arrays: what a read gives after each operation, for every list of
cells, and that every operation keeps the canonical form and the bound on the indices. -/

namespace Sys2Proof.Machine.Memory

/-! ### Reads -/

@[simp] theorem read_nil (a : Nat) : read [] a = unlisted := rfl

theorem read_cons (k : Nat) (v : Byte) (m : Memory) (a : Nat) :
    read ((k, v) :: m) a = if k = a then v else read m a := rfl

theorem read_of_absent (m : Memory) (a : Nat) (h : ∀ c ∈ m, c.1 ≠ a) : read m a = unlisted := by
  induction m with
  | nil => rfl
  | cons c m ih =>
    obtain ⟨k, v⟩ := c
    have hk : k ≠ a := h (k, v) (by simp)
    rw [read_cons, if_neg hk]
    exact ih (fun c hc => h c (by simp [hc]))

theorem read_erase (m : Memory) (a b : Nat) :
    read (erase m a) b = if b = a then unlisted else read m b := by
  by_cases hab : b = a
  · subst hab
    rw [if_pos rfl]
    refine read_of_absent _ _ (fun c hc => ?_)
    simpa using (List.mem_filter.mp hc).2
  · rw [if_neg hab]
    induction m with
    | nil => rfl
    | cons c m ih =>
      obtain ⟨k, v⟩ := c
      unfold erase at ih ⊢
      by_cases hka : k = a
      · subst hka
        simpa [read_cons, Ne.symm hab] using ih
      · simp [hka, read_cons, ih]

theorem absent_erase (m : Memory) (a : Nat) : ∀ c ∈ erase m a, c.1 ≠ a := by
  intro c hc
  simpa using (List.mem_filter.mp hc).2

theorem read_place (m : Memory) (a : Nat) (v : Byte) (h : ∀ c ∈ m, c.1 ≠ a) (b : Nat) :
    read (place m a v) b = if b = a then v else read m b := by
  induction m with
  | nil => simp [place, read_cons, eq_comm]
  | cons c m ih =>
    obtain ⟨k, w⟩ := c
    have hk : k ≠ a := h (k, w) (by simp)
    have ih' := ih (fun c hc => h c (by simp [hc]))
    unfold place
    split
    · simp [read_cons, eq_comm]
    · by_cases hb : k = b
      · subst hb; simp [read_cons, hk]
      · simp [read_cons, hb, ih']

/-- A read after a write: the byte written at its index, the old byte elsewhere. -/
theorem read_write (m : Memory) (a : Nat) (v : Byte) (b : Nat) :
    read (write m a v) b = if b = a then v else read m b := by
  unfold write
  split
  · rename_i hv; rw [read_erase, hv]
  · rw [read_place _ _ _ (absent_erase m a), read_erase]
    split <;> rfl

@[simp] theorem read_write_same (m : Memory) (a : Nat) (v : Byte) : read (write m a v) a = v := by
  simp [read_write]

theorem read_write_other (m : Memory) (a : Nat) (v : Byte) (b : Nat) (h : b ≠ a) :
    read (write m a v) b = read m b := by
  simp [read_write, h]

/-! ### Runs -/

@[simp] theorem length_readRun (m : Memory) (a n : Nat) : (readRun m a n).length = n := by
  simp [readRun]

theorem getElem_readRun (m : Memory) (a n i : Nat) (h : i < (readRun m a n).length) :
    (readRun m a n)[i] = read m (a + i) := by
  simp [readRun]

theorem getD_readRun (m : Memory) (a n i : Nat) (d : Byte) (h : i < n) :
    (readRun m a n).getD i d = read m (a + i) := by
  simp [readRun, List.getD_eq_getElem?_getD, h]

theorem readRun_succ (m : Memory) (a n : Nat) :
    readRun m a (n + 1) = readRun m a n ++ [read m (a + n)] := by
  simp [readRun, List.range_succ]

theorem readRun_congr {m m' : Memory} {a n : Nat}
    (h : ∀ i, i < n → read m (a + i) = read m' (a + i)) : readRun m a n = readRun m' a n := by
  unfold readRun
  exact List.map_congr_left (fun i hi => h i (List.mem_range.mp hi))

/-- A read after a run of writes: the byte of the run inside it, the old byte outside. -/
theorem read_writeRun (vs : List Byte) (m : Memory) (a b : Nat) :
    read (writeRun m a vs) b =
      if a ≤ b ∧ b < a + vs.length then vs.getD (b - a) unlisted else read m b := by
  induction vs generalizing m a with
  | nil => simp [writeRun]
  | cons v vs ih =>
    rw [writeRun, ih, read_write]
    by_cases hba : b = a
    · subst hba
      simp
    · by_cases hin : a ≤ b ∧ b < a + (v :: vs).length
      · have h1 : a + 1 ≤ b ∧ b < a + 1 + vs.length := by
          simp only [List.length_cons] at hin; omega
        rw [if_pos h1, if_pos hin]
        obtain ⟨d, hd⟩ : ∃ d, b - a = d + 1 := ⟨b - a - 1, by omega⟩
        have hd' : b - (a + 1) = d := by omega
        rw [hd, hd', List.getD_cons_succ]
      · have h1 : ¬(a + 1 ≤ b ∧ b < a + 1 + vs.length) := by
          simp only [List.length_cons] at hin; omega
        rw [if_neg h1, if_neg hin, if_neg hba]

/-! ### The canonical form -/

theorem wf_cons (k : Nat) (v : Byte) (m : Memory) :
    wf ((k, v) :: m) = true ↔ v ≠ unlisted ∧ (∀ c ∈ m, k < c.1) ∧ wf m = true := by
  simp [wf, and_assoc]

theorem within_iff (m : Memory) (n : Nat) : within m n = true ↔ ∀ c ∈ m, c.1 < n := by
  simp [within]

theorem mem_erase {m : Memory} {a : Nat} {c : Host.Cell} (h : c ∈ erase m a) : c ∈ m :=
  (List.mem_filter.mp h).1

theorem wf_erase (m : Memory) (a : Nat) (h : wf m = true) : wf (erase m a) = true := by
  induction m with
  | nil => rfl
  | cons c m ih =>
    obtain ⟨k, v⟩ := c
    obtain ⟨hv, hk, hm⟩ := (wf_cons k v m).mp h
    have ih' := ih hm
    by_cases hka : k = a
    · simpa [erase, hka] using ih'
    · have : erase ((k, v) :: m) a = (k, v) :: erase m a := by simp [erase, hka]
      rw [this, wf_cons]
      exact ⟨hv, fun c hc => hk c (mem_erase hc), ih'⟩

theorem mem_place {m : Memory} {a : Nat} {v : Byte} {c : Host.Cell} (h : c ∈ place m a v) :
    c = (a, v) ∨ c ∈ m := by
  induction m with
  | nil => simpa [place] using h
  | cons d m ih =>
    unfold place at h
    split at h
    · simpa using h
    · rcases List.mem_cons.mp h with rfl | h
      · simp
      · rcases ih h with h | h
        · exact .inl h
        · exact .inr (List.mem_cons_of_mem _ h)

theorem wf_place (m : Memory) (a : Nat) (v : Byte) (hv : v ≠ unlisted)
    (ha : ∀ c ∈ m, c.1 ≠ a) (h : wf m = true) : wf (place m a v) = true := by
  induction m with
  | nil => simp [place, wf, hv]
  | cons c m ih =>
    obtain ⟨k, w⟩ := c
    obtain ⟨hw, hk, hm⟩ := (wf_cons k w m).mp h
    have hka : k ≠ a := ha (k, w) (by simp)
    unfold place
    split
    · rename_i hlt
      rw [wf_cons]
      refine ⟨hv, fun c hc => ?_, h⟩
      rcases List.mem_cons.mp hc with rfl | hc
      · exact hlt
      · exact Nat.lt_trans hlt (hk c hc)
    · rename_i hge
      rw [wf_cons]
      refine ⟨hw, fun c hc => ?_, ih (fun c hc => ha c (by simp [hc])) hm⟩
      rcases mem_place hc with rfl | hc
      · simp only at hge; omega
      · exact hk c hc

/-- A write keeps the canonical form. -/
theorem wf_write (m : Memory) (a : Nat) (v : Byte) (h : wf m = true) : wf (write m a v) = true := by
  unfold write
  split
  · exact wf_erase m a h
  · rename_i hv
    exact wf_place _ _ _ hv (absent_erase m a) (wf_erase m a h)

/-- A write inside the bound keeps the bound. -/
theorem within_write (m : Memory) (a : Nat) (v : Byte) (n : Nat) (ha : a < n)
    (h : within m n = true) : within (write m a v) n = true := by
  rw [within_iff] at h ⊢
  intro c hc
  unfold write at hc
  split at hc
  · exact h c (mem_erase hc)
  · rcases mem_place hc with rfl | hc
    · exact ha
    · exact h c (mem_erase hc)

/-- A run of writes keeps the canonical form. -/
theorem wf_writeRun (vs : List Byte) (m : Memory) (a : Nat) (h : wf m = true) :
    wf (writeRun m a vs) = true := by
  induction vs generalizing m a with
  | nil => exact h
  | cons v vs ih => exact ih _ _ (wf_write m a v h)

/-- A run of writes inside the bound keeps the bound. -/
theorem within_writeRun (vs : List Byte) (m : Memory) (a n : Nat) (ha : a + vs.length ≤ n)
    (h : within m n = true) : within (writeRun m a vs) n = true := by
  induction vs generalizing m a with
  | nil => exact h
  | cons v vs ih =>
    simp only [List.length_cons] at ha
    exact ih _ _ (by omega) (within_write m a v n (by omega) h)

theorem read_of_within (m : Memory) (n a : Nat) (h : within m n = true) (ha : n ≤ a) :
    read m a = unlisted := by
  refine read_of_absent m a (fun c hc => ?_)
  have := (within_iff m n).mp h c hc
  omega

theorem read_of_lt (m : Memory) (a : Nat) (h : ∀ c ∈ m, a < c.1) : read m a = unlisted :=
  read_of_absent m a (fun c hc => by have := h c hc; omega)

/-- Canonical arrays that read the same are the same data. -/
theorem ext_of_read (m m' : Memory) (h : wf m = true) (h' : wf m' = true)
    (hr : ∀ a, read m a = read m' a) : m = m' := by
  induction m generalizing m' with
  | nil =>
    cases m' with
    | nil => rfl
    | cons c m' =>
      obtain ⟨k, v⟩ := c
      have := hr k
      rw [read_cons, if_pos rfl] at this
      exact absurd this.symm ((wf_cons k v m').mp h').1
  | cons c m ih =>
    obtain ⟨k, v⟩ := c
    obtain ⟨hv, hk, hm⟩ := (wf_cons k v m).mp h
    cases m' with
    | nil =>
      have := hr k
      rw [read_cons, if_pos rfl] at this
      exact absurd this hv
    | cons c' m' =>
      obtain ⟨k', v'⟩ := c'
      obtain ⟨hv', hk', hm'⟩ := (wf_cons k' v' m').mp h'
      have hkk : k = k' := by
        rcases Nat.lt_trichotomy k k' with hlt | heq | hgt
        · have h1 := hr k
          rw [read_cons, if_pos rfl, read_cons, if_neg (by omega),
            read_of_lt m' k (fun c hc => by have := hk' c hc; omega)] at h1
          exact absurd h1 hv
        · exact heq
        · have h1 := hr k'
          rw [read_cons, if_neg (by omega), read_cons, if_pos rfl,
            read_of_lt m k' (fun c hc => by have := hk c hc; omega)] at h1
          exact absurd h1.symm hv'
      subst hkk
      have hvv : v = v' := by simpa [read_cons] using hr k
      subst hvv
      have : m = m' := by
        refine ih m' hm hm' (fun a => ?_)
        by_cases ha : k = a
        · subst ha
          rw [read_of_lt m k hk, read_of_lt m' k hk']
        · simpa [read_cons, ha] using hr a
      rw [this]

theorem wf_arrayOf (n : Nat) (vs : List Byte) : wf (arrayOf n vs) = true :=
  wf_writeRun _ _ _ rfl

theorem within_arrayOf (n : Nat) (vs : List Byte) : within (arrayOf n vs) n = true :=
  within_writeRun _ _ _ _ (by simp) rfl

/-- Every content of an array of `n` bytes is reached by `arrayOf`. -/
theorem read_arrayOf (n : Nat) (vs : List Byte) (i : Nat) (h : i < n) :
    read (arrayOf n vs) i = vs.getD i unlisted := by
  unfold arrayOf
  rw [read_writeRun]
  by_cases hi : i < vs.length
  · rw [if_pos (by simp; omega)]
    simp [List.getD_eq_getElem?_getD, h]
  · rw [if_neg (by simp; omega)]
    simp [List.getD_eq_getElem?_getD, List.getElem?_eq_none (Nat.not_lt.mp hi)]

end Sys2Proof.Machine.Memory
end

