-- ==== Sys2Proof/Laws/PerInstr.lean ====
section
/-! SUPPORT. Facts about every command as syntax, one lemma per constructor. Family `EncodedRow`:
the encoded word is of the command's own row of spec/30_encoding.md R95, so its reserved bits are
zero. -/

namespace Sys2Proof.Laws.EncodedRow

/-- The encoded word matches the command's row (R95). -/
def Statement (i : Instr) : Prop := encode i &&& i.row.mask = i.row.pattern

theorem nop : Statement .nop := by
  unfold Statement
  decide

theorem crcReset : Statement .crcReset := by
  unfold Statement
  decide

theorem emitByte (v : Byte) (f : Bool) : Statement (.emitByte v f) := by
  unfold Statement
  ext j hj
  simp only [encode, Instr.row, Instr.opcode, Instr.operands, fieldAt]
  interval_cases j <;> simp

theorem emitFlag (c : Half) : Statement (.emitFlag c) := by
  unfold Statement
  ext j hj
  simp only [encode, Instr.row, Instr.opcode, Instr.operands, fieldAt]
  interval_cases j <;> simp

theorem emitString (a l : Half) : Statement (.emitString a l) := by
  unfold Statement
  ext j hj
  simp only [encode, Instr.row, Instr.opcode, Instr.operands, fieldAt]
  interval_cases j <;> simp

theorem emitCrc : Statement .emitCrc := by
  unfold Statement
  decide

theorem tmMark : Statement .tmMark := by
  unfold Statement
  decide

theorem tmSpace : Statement .tmSpace := by
  unfold Statement
  decide

theorem gsClassify (lat lon : Int) : Statement (.gsClassify lat lon) := by
  unfold Statement
  ext j hj
  simp only [encode, Instr.row, Instr.opcode, Instr.operands, fieldAt]
  interval_cases j <;> simp

theorem tcGet : Statement .tcGet := by
  unfold Statement
  decide

theorem tcPush (v : Byte) : Statement (.tcPush v) := by
  unfold Statement
  ext j hj
  simp only [encode, Instr.row, Instr.opcode, Instr.operands, fieldAt]
  interval_cases j <;> simp

theorem tcStore : Statement .tcStore := by
  unfold Statement
  decide

theorem tcPushpair (p q : Byte) : Statement (.tcPushpair p q) := by
  unfold Statement
  ext j hj
  simp only [encode, Instr.row, Instr.opcode, Instr.operands, fieldAt]
  interval_cases j <;> simp

theorem tcRecord (lat lon : Int) : Statement (.tcRecord lat lon) := by
  unfold Statement
  ext j hj
  simp only [encode, Instr.row, Instr.opcode, Instr.operands, fieldAt]
  interval_cases j <;> simp

theorem tcRead (c : Half) : Statement (.tcRead c) := by
  unfold Statement
  ext j hj
  simp only [encode, Instr.row, Instr.opcode, Instr.operands, fieldAt]
  interval_cases j <;> simp

theorem tcExport (a : Half) : Statement (.tcExport a) := by
  unfold Statement
  ext j hj
  simp only [encode, Instr.row, Instr.opcode, Instr.operands, fieldAt]
  interval_cases j <;> simp

theorem rdreg (n : Byte) : Statement (.rdreg n) := by
  unfold Statement
  ext j hj
  simp only [encode, Instr.row, Instr.opcode, Instr.operands, fieldAt]
  interval_cases j <;> simp

theorem wrreg (n v : Byte) : Statement (.wrreg n v) := by
  unfold Statement
  ext j hj
  simp only [encode, Instr.row, Instr.opcode, Instr.operands, fieldAt]
  interval_cases j <;> simp

theorem wrbuf (a : Half) (v : Byte) : Statement (.wrbuf a v) := by
  unfold Statement
  ext j hj
  simp only [encode, Instr.row, Instr.opcode, Instr.operands, fieldAt]
  interval_cases j <;> simp

theorem rdbuf (a : Half) : Statement (.rdbuf a) := by
  unfold Statement
  ext j hj
  simp only [encode, Instr.row, Instr.opcode, Instr.operands, fieldAt]
  interval_cases j <;> simp

end Sys2Proof.Laws.EncodedRow
end

