-- ==== Sys2Proof/Laws/System.lean ====
section
/-! SUPPORT. What the register map answers. -/

namespace Sys2Proof.Machine

/-- A register read answers exactly for the numbers 0x00 to 0x0D. -/
theorem readReg_isSome (n : Byte) (s : State) : (readReg n s).isSome = decide (n.toNat ≤ 0x0D) := by
  unfold readReg
  split <;> simp_all
  omega

/-- What a register write can do: one of the three control registers, nothing else. -/
theorem writeReg_cases (n v : Byte) (s t : State) (h : writeReg n v s = some t) :
    (n.toNat = 0x04 ∧ v.toNat ≤ 1 ∧ t = { s with strat := v.extractLsb' 0 1 }) ∨
    (n.toNat = 0x05 ∧ t = { s with lsbHi := v }) ∨
    (n.toNat = 0x06 ∧ t = { s with lsbLo := v }) := by
  unfold writeReg at h
  split at h
  · split at h
    · simp_all
    · simp at h
  · simp_all
  · simp_all
  · simp at h

end Sys2Proof.Machine
end

