-- ==== Sys2Proof/Laws/Trail.lean ====
section
/-! SUPPORT. What the push and the shared pair push of the Position Trail Cache do. -/

namespace Sys2Proof.Machine

/-- The push writes `W` and `WC` only. -/
theorem push_frame (v : Byte) (s : State) :
    push v s = { s with w := (push v s).w, wc := s.wc + 1#16 } := by
  unfold push
  split <;> rfl

@[simp] theorem push_wc (v : Byte) (s : State) : (push v s).wc = s.wc + 1#16 := by
  rw [push_frame]

@[simp] theorem push_cfg (v : Byte) (s : State) : (push v s).cfg = s.cfg := by
  rw [push_frame]

/-- A byte of `W` after a push below capacity. -/
theorem push_read_append (v : Byte) (s : State) (h : s.wc.toNat < s.cfg.cap) (i : Nat) :
    (push v s).w.read i = if i = s.wc.toNat then v else s.w.read i := by
  simp [push, h, Memory.read_write]

/-- A byte of `W` after a push into a full buffer: the newest at the end, the others one down. -/
theorem push_read_shift (v : Byte) (s : State) (h : s.cfg.cap ≤ s.wc.toNat) (i : Nat) :
    (push v s).w.read i =
      if i = s.cfg.cap - 1 then v
      else if i < s.cfg.cap - 1 then s.w.read (i + 1) else s.w.read i := by
  simp only [push, Nat.not_lt.mpr h, if_false, Memory.read_write, Memory.read_writeRun,
    Memory.length_readRun, Nat.zero_le, true_and, Nat.zero_add, Nat.sub_zero]
  split
  · rfl
  · split
    · rename_i hi
      rw [Memory.getD_readRun _ _ _ _ _ hi, Nat.add_comm]
    · rfl

/-- The pair push ends in one of four ways, each a next state. -/
theorem pushPair_cases (p q : Byte) (f : State → Word) (s : State) :
    (oddCount s = true ∧ pushPair p q f s = .next (s.faulted .tcParity)) ∨
    (oddCount s = false ∧ isDuplicate p q s = true ∧
      pushPair p q f s =
        .next (({ s with dup := 1#1 } : State).answered (responseWord 0#8 (f { s with dup := 1#1 })))) ∨
    (oddCount s = false ∧ isDuplicate p q s = false ∧ 0xFFFD < s.wc.toNat ∧
      pushPair p q f s = .next (s.faulted .tcCountOverflow)) ∨
    (oddCount s = false ∧ isDuplicate p q s = false ∧ s.wc.toNat ≤ 0xFFFD ∧
      pushPair p q f s =
        .next (({ push q (push p s) with dup := 0#1 } : State).answered
          (responseWord 0#8 (f { push q (push p s) with dup := 0#1 })))) := by
  unfold pushPair respond raise
  cases h1 : oddCount s
  · cases h2 : isDuplicate p q s
    · by_cases h3 : 0xFFFD < s.wc.toNat
      · exact .inr (.inr (.inl ⟨rfl, rfl, h3, by simp [h3]⟩))
      · exact .inr (.inr (.inr ⟨rfl, rfl, by omega, by simp [h3]⟩))
    · exact .inr (.inl ⟨rfl, rfl, by simp⟩)
  · exact .inl ⟨rfl, by simp⟩

/-- The logical length never passes the capacity. -/
theorem logicalLength_le_cap (s : State) : logicalLength s ≤ s.cfg.cap := Nat.min_le_right _ _

@[simp] theorem length_trail (s : State) : (trail s).length = logicalLength s := by
  simp [trail]

@[simp] theorem length_exportBytes (s : State) : (exportBytes s).length = logicalLength s + 3 := by
  simp [exportBytes, trailer]

/-! ### The trail as a bounded first-in-first-out buffer -/

/-- The count below its top grows by exactly one. -/
theorem toNat_wc_add_one {c : Half} (h : c.toNat < 0xFFFF) : (c + 1#16).toNat = c.toNat + 1 := by
  simp
  omega

theorem getElem?_trail (s : State) (i : Nat) :
    (trail s)[i]? = if i < logicalLength s then some (s.w.read i) else none := by
  unfold trail Memory.readRun
  by_cases h : i < logicalLength s <;> simp [h]

theorem logicalLength_push (v : Byte) (s : State) (h : s.wc.toNat < 0xFFFF) :
    logicalLength (push v s) = min (s.wc.toNat + 1) s.cfg.cap := by
  simp only [logicalLength, push_wc, push_cfg, toNat_wc_add_one h]

theorem lastOf_of_length_le {n : Nat} {l : List Byte} (h : l.length ≤ n) : lastOf n l = l := by
  simp [lastOf, Nat.sub_eq_zero_of_le h]

theorem lastOf_append_lastOf (n : Nat) (xs ys : List Byte) :
    lastOf n (lastOf n xs ++ ys) = lastOf n (xs ++ ys) := by
  unfold lastOf
  by_cases h : xs.length ≤ n
  · simp [Nat.sub_eq_zero_of_le h]
  · rw [List.drop_append, List.drop_append, List.drop_drop]
    simp only [List.length_append, List.length_drop]
    congr 2 <;> omega

/-- A push appends its byte to the trail, of which the last `CAP` bytes are kept. -/
theorem trail_push (v : Byte) (s : State) (h : s.wc.toNat < 0xFFFF) :
    trail (push v s) = lastOf s.cfg.cap (trail s ++ [v]) := by
  apply List.ext_getElem?
  intro i
  rw [getElem?_trail, logicalLength_push v s h]
  unfold lastOf
  rw [List.getElem?_drop, List.getElem?_append, getElem?_trail]
  simp only [length_trail, List.length_append, List.length_singleton]
  unfold logicalLength
  by_cases hc : s.wc.toNat < s.cfg.cap
  · rw [Nat.min_eq_left hc.le, Nat.sub_eq_zero_of_le hc, push_read_append v s hc,
      Nat.min_eq_left hc, Nat.zero_add]
    rcases Nat.lt_trichotomy i s.wc.toNat with h1 | h1 | h1
    · simp [h1, h1.ne, Nat.lt_succ_of_lt h1]
    · simp [h1]
    · have h2 : ¬i < s.wc.toNat + 1 := by omega
      have h3 : ¬i < s.wc.toNat := by omega
      have h4 : i - s.wc.toNat ≠ 0 := by omega
      simp [h2, h3, h4]
  · have hc' : s.cfg.cap ≤ s.wc.toNat := Nat.le_of_not_lt hc
    rw [Nat.min_eq_right hc', Nat.min_eq_right (Nat.le_succ_of_le hc'), push_read_shift v s hc',
      Nat.add_sub_cancel_left]
    rcases Nat.lt_trichotomy (1 + i) s.cfg.cap with h1 | h1 | h1
    · have h2 : i < s.cfg.cap := by omega
      have h3 : i ≠ s.cfg.cap - 1 := by omega
      have h4 : i < s.cfg.cap - 1 := by omega
      rw [if_pos h2, if_neg h3, if_pos h4, if_pos h1, if_pos h1, Nat.add_comm]
    · have h2 : i < s.cfg.cap := by omega
      have h3 : i = s.cfg.cap - 1 := by omega
      have h4 : ¬1 + i < s.cfg.cap := by omega
      have h5 : 1 + i - s.cfg.cap = 0 := by omega
      rw [if_pos h2, if_pos h3, if_neg h4, h5]
      rfl
    · have h2 : ¬i < s.cfg.cap := by omega
      have h4 : ¬1 + i < s.cfg.cap := by omega
      have h5 : 1 + i - s.cfg.cap ≠ 0 := by omega
      rw [if_neg h2, if_neg h4, List.getElem?_singleton, if_neg h5]

/-- A push writes nothing beyond the trail it leaves. -/
theorem push_read_beyond (v : Byte) (s : State) (hc : 0 < s.cfg.cap) (h : s.wc.toNat < 0xFFFF)
    (i : Nat) (hi : logicalLength (push v s) ≤ i) : (push v s).w.read i = s.w.read i := by
  rw [logicalLength_push v s h] at hi
  by_cases h1 : s.wc.toNat < s.cfg.cap
  · rw [push_read_append v s h1, if_neg (by omega)]
  · rw [push_read_shift v s (Nat.le_of_not_lt h1), if_neg (by omega), if_neg (by omega)]

/-! ### Duplicates -/

/-- The test of the pair ending `back` bytes before the end, in terms of the trail. -/
theorem pairAt_iff (back : Nat) (p q : Byte) (s : State) (hb : 2 ≤ back) :
    pairAt back p q s = true ↔
      back ≤ (trail s).length ∧ (trail s)[(trail s).length - back]? = some p ∧
        (trail s)[(trail s).length - back + 1]? = some q := by
  simp only [pairAt, Bool.and_eq_true, decide_eq_true_eq, length_trail, getElem?_trail, and_assoc]
  constructor
  · rintro ⟨h1, h2, h3⟩
    rw [if_pos (by omega), if_pos (by omega), h2, h3]
    exact ⟨h1, rfl, rfl⟩
  · rintro ⟨h1, h2, h3⟩
    rw [if_pos (by omega)] at h2 h3
    exact ⟨h1, by simpa using h2, by simpa using h3⟩

/-! ### What a push leaves alone, field by field -/

@[simp] theorem push_crc (v : Byte) (s : State) : (push v s).crc = s.crc := by
  rw [push_frame]

@[simp] theorem push_ones (v : Byte) (s : State) : (push v s).ones = s.ones := by
  rw [push_frame]

@[simp] theorem push_pol (v : Byte) (s : State) : (push v s).pol = s.pol := by
  rw [push_frame]

@[simp] theorem push_txlvl (v : Byte) (s : State) : (push v s).txlvl = s.txlvl := by
  rw [push_frame]

@[simp] theorem push_strat (v : Byte) (s : State) : (push v s).strat = s.strat := by
  rw [push_frame]

@[simp] theorem push_lsbHi (v : Byte) (s : State) : (push v s).lsbHi = s.lsbHi := by
  rw [push_frame]

@[simp] theorem push_lsbLo (v : Byte) (s : State) : (push v s).lsbLo = s.lsbLo := by
  rw [push_frame]

@[simp] theorem push_fault (v : Byte) (s : State) : (push v s).fault = s.fault := by
  rw [push_frame]

@[simp] theorem push_dup (v : Byte) (s : State) : (push v s).dup = s.dup := by
  rw [push_frame]

@[simp] theorem push_freq (v : Byte) (s : State) : (push v s).freq = s.freq := by
  rw [push_frame]

@[simp] theorem push_pbuf (v : Byte) (s : State) : (push v s).pbuf = s.pbuf := by
  rw [push_frame]

@[simp] theorem push_nvb (v : Byte) (s : State) : (push v s).nvb = s.nvb := by
  rw [push_frame]

@[simp] theorem push_nvc (v : Byte) (s : State) : (push v s).nvc = s.nvc := by
  rw [push_frame]

@[simp] theorem push_pending (v : Byte) (s : State) : (push v s).pending = s.pending := by
  rw [push_frame]

@[simp] theorem push_responses (v : Byte) (s : State) : (push v s).responses = s.responses := by
  rw [push_frame]

@[simp] theorem push_txtrace (v : Byte) (s : State) : (push v s).txtrace = s.txtrace := by
  rw [push_frame]

@[simp] theorem push_symtrace (v : Byte) (s : State) : (push v s).symtrace = s.symtrace := by
  rw [push_frame]

end Sys2Proof.Machine
end

