-- ==== Sys2Proof/Tests/Slice0.lean ====
section
/-! SUPPORT. The model's own tests: the smoke test of WellFormed, a word decoded for every command,
small one-step tests whose expected values are the vectors of spec/95_test_vectors.md, and for every
statement with hypotheses a witness that meets them. -/

namespace Sys2Proof.Tests

open Sys2Proof Sys2Proof.Machine

/-! ### Ill-formed terms -/

theorem test_wf_refuses_lat_above : (Instr.gsClassify 32768 0).wf = false := by decide
theorem test_wf_refuses_lon_below : (Instr.gsClassify 0 (-32769)).wf = false := by decide
theorem test_wf_refuses_record_lat : (Instr.tcRecord (-32769) 0).wf = false := by decide
theorem test_wf_refuses_record_lon : (Instr.tcRecord 0 32768).wf = false := by decide
theorem test_wf_accepts_ends : (Instr.tcRecord (-32768) 32767).wf = true := by decide

theorem test_cfg_sample : Config.sample.wf = true := by decide
theorem test_cfg_refuses_odd_cap : ({ Config.sample with cap := 7 } : Config).wf = false := by decide
theorem test_cfg_refuses_no_cap : ({ Config.sample with cap := 0 } : Config).wf = false := by decide
theorem test_cfg_refuses_big_cap :
    ({ Config.sample with cap := 65536 } : Config).wf = false := by decide
theorem test_cfg_refuses_no_pbuf :
    ({ Config.sample with pbufSize := 0 } : Config).wf = false := by decide
theorem test_cfg_refuses_big_pbuf :
    ({ Config.sample with pbufSize := 65537 } : Config).wf = false := by decide
theorem test_cfg_refuses_six_regions :
    ({ Config.sample with regions := sampleRegions.drop 1 } : Config).wf = false := by decide
theorem test_cfg_refuses_maxv : ({ Config.sample with maxv := 5 } : Config).wf = false := by decide
theorem test_cfg_refuses_leadin :
    ({ Config.sample with leadinFlags := 65536 } : Config).wf = false := by decide
theorem test_cfg_refuses_trail :
    ({ Config.sample with trailFlags := 65536 } : Config).wf = false := by decide
theorem test_vertex_refuses_wide : (Vertex.wf ⟨0, 32768⟩) = false := by decide
theorem test_memory_refuses_disorder : Memory.wf [(2, 1#8), (1, 1#8)] = false := by decide
theorem test_memory_refuses_zero_entry : Memory.wf [(1, 0#8)] = false := by decide

/-! ### Decoding: a word written out from R92 and R95 for every command -/

theorem test_decode_nop : decode 0x0000000000#40 = some .nop := by decide
theorem test_decode_crcReset : decode 0x0100000000#40 = some .crcReset := by decide
theorem test_decode_emitByte : decode 0x02000001FF#40 = some (.emitByte 0xFF#8 true) := by decide
theorem test_decode_emitFlag : decode 0x030000FFFE#40 = some (.emitFlag 0xFFFE#16) := by decide
theorem test_decode_emitString :
    decode 0x0412345678#40 = some (.emitString 0x1234#16 0x5678#16) := by decide
theorem test_decode_emitCrc : decode 0x0500000000#40 = some .emitCrc := by decide
theorem test_decode_tmMark : decode 0x1000000000#40 = some .tmMark := by decide
theorem test_decode_tmSpace : decode 0x1100000000#40 = some .tmSpace := by decide
theorem test_decode_gsClassify :
    decode 0x201327E3DF#40 = some (.gsClassify 4903 (-7201)) := by decide
theorem test_decode_tcGet : decode 0x3000000000#40 = some .tcGet := by decide
theorem test_decode_tcPush : decode 0x3100000041#40 = some (.tcPush 0x41#8) := by decide
theorem test_decode_tcStore : decode 0x3200000000#40 = some .tcStore := by decide
theorem test_decode_tcPushpair :
    decode 0x3300004161#40 = some (.tcPushpair 0x41#8 0x61#8) := by decide
theorem test_decode_tcRecord :
    decode 0x3480007FFF#40 = some (.tcRecord (-32768) 32767) := by decide
theorem test_decode_tcRead : decode 0x3500000008#40 = some (.tcRead 8#16) := by decide
theorem test_decode_tcExport : decode 0x36FFF00000#40 = some (.tcExport 0xFFF0#16) := by decide
theorem test_decode_rdreg : decode 0x400000000D#40 = some (.rdreg 0x0D#8) := by decide
theorem test_decode_wrreg : decode 0x4100000533#40 = some (.wrreg 0x05#8 0x33#8) := by decide
theorem test_decode_wrbuf : decode 0x4200FF005A#40 = some (.wrbuf 0x00FF#16 0x5A#8) := by decide
theorem test_decode_rdbuf : decode 0x4300180000#40 = some (.rdbuf 0x0018#16) := by decide

/-- V70: words with a reserved bit set or an unknown opcode are illegal. -/
theorem test_decode_refuses :
    ([0x0000000001#40, 0x0100000001#40, 0x0200000200#40, 0x0300010000#40, 0x0500000001#40,
      0x0600000000#40, 0x1200000000#40, 0x2100000000#40, 0x3100000100#40, 0x3300010000#40,
      0x3500010000#40, 0x3600000001#40, 0x3700000000#40, 0x4000000100#40, 0x4100010000#40,
      0x4200000100#40, 0x4300000001#40, 0x4400000000#40, 0xFF00000000#40,
      0xFFFFFFFFFF#40] : List Word40).all (fun w => (decode w).isNone) = true := by decide

/-- The table row of each command stands under its mnemonic (R95). -/
theorem test_table_mnemonics :
    opcodeTable.map OpcodeRow.mnemonic =
      ["NOP", "CRC_RESET", "EMIT_BYTE", "EMIT_FLAG", "EMIT_STRING", "EMIT_CRC", "TM_MARK",
       "TM_SPACE", "GS_CLASSIFY", "TC_GET", "TC_PUSH", "TC_STORE", "TC_PUSHPAIR", "TC_RECORD",
       "TC_READ", "TC_EXPORT", "RDREG", "WRREG", "WRBUF", "RDBUF"] := by decide

/-! ### One-step tests -/

/-- What a check finds in the state one command gives. -/
def after (r : Host.Outcome State Fault Refusal) (check : State → Bool) : Bool :=
  match r with
  | .next t => check t
  | .fault _ => false
  | .refused _ => false

/-- The state of V20 to V33: from reset but for `ONES` and `POL`. -/
def lineState (ones : BitVec 3) (pol : BitVec 1) : State :=
  { State.reset with ones := ones, pol := pol }

/-- A trail of eight bytes with the given count. -/
def trailState (wc : Half) (w : List Byte) : State :=
  { State.reset with wc := wc, w := arrayOf 8 w }

theorem test_step_illegal :
    after (step (State.reset.withFetchWord 40 0x0600000000))
      (fun t => t.fault == 0x01#8 && t.responses == [0x0100000000#40]) = true := by decide

theorem test_nop : after (exec .nop State.reset) (fun t => t.responses == [0#40]) = true := by decide

theorem test_crcReset :
    after (exec .crcReset { State.reset with crc := 0x0095#16 }) (fun t => t.crc == 0xFFFF#16) =
      true := by decide

/-- V27: the fifth one of a run begun earlier. -/
theorem test_emitByte_stuffed :
    after (exec (.emitByte 0x01#8 false) (lineState 4#3 0#1)) (fun t =>
      t.crc == 0x1E0E#16 && t.ones == 0#3 && t.pol == 0#1 && t.responses == [9#40] &&
      t.symtrace == [.space, .mark, .space, .mark, .space, .mark, .space, .mark, .space]) =
      true := by decide

/-- V24: flag mode with another value than 0x7E. -/
theorem test_emitByte_flag_mode :
    after (exec (.emitByte 0xFF#8 true) (lineState 0#3 0#1)) (fun t =>
      t.crc == 0x00FF#16 && t.ones == 0#3 && t.pol == 0#1 && t.responses == [8#40]) =
      true := by decide

/-- V34: one flag from reset. -/
theorem test_emitFlag :
    after (exec (.emitFlag 1#16) State.reset) (fun t =>
      t.crc == 0x957E#16 && t.ones == 0#3 && t.pol == 0#1 && t.responses == [8#40]) =
      true := by decide

/-- V20, from the second byte of PBUF; and V39b, the empty run one past the end. -/
theorem test_emitString :
    after (exec (.emitString 1#16 1#16) { State.reset with pbuf := [(1, 0xFF#8)] })
      (fun t => t.crc == 0x00FF#16 && t.ones == 3#3 && t.responses == [9#40]) = true := by decide

theorem test_emitString_range :
    after (exec (.emitString 0x0101#16 0#16) State.reset)
      (fun t => t.fault == 0x02#8 && t.responses == [0x0200000000#40]) = true := by decide

/-- V12: the trailer of "A" and the residue, low byte first (P4, step 14). -/
theorem test_emitCrc_crc :
    after (exec .emitCrc { State.reset with crc := 0x5C0A#16 })
      (fun t => t.crc == 0xF0B8#16 && t.responses == [0xA3F5#40]) = true := by
  set_option maxRecDepth 4096 in decide

/-- V45 and V48. -/
theorem test_tmMark :
    after (exec .tmMark State.reset) (fun t =>
      t.txtrace == [.drive 1#1 .tMark, .drive 0#1 .tMark] && t.symtrace == [.mark]) =
      true := by decide

theorem test_tmSpace_carrier :
    after (exec .tmSpace { State.reset with strat := 1#1, lsbHi := 0x33#8, lsbLo := 0x2B#8 })
      (fun t => t.txtrace == [.regWrite 0 0x33#8 .tSpace, .regWrite 0 0x2B#8 .tSpace,
        .regWrite 0 0x33#8 .tSpace, .regWrite 0 0x2B#8 .tSpace]) = true := by decide

/-- V51: just inside and just outside a slanted edge. -/
theorem test_gsClassify_inside :
    after (exec (.gsClassify 3900 (-9500)) State.reset)
      (fun t => t.freq == 145570000#32 && t.responses == [145570000#40]) = true := by decide

theorem test_gsClassify_outside :
    after (exec (.gsClassify 4100 (-9500)) State.reset) (fun t => t.freq == 144390000#32) =
      true := by decide

theorem test_tcGet :
    after (exec .tcGet { State.reset with nvc := 4#16, nvb := arrayOf 8 [0x67#8, 0x3C#8] })
      (fun t => t.wc == 4#16 && t.w == [(0, 0x67#8), (1, 0x3C#8)] && t.responses == [4#40]) =
      true := by decide

/-- R223's example: a push into a full buffer. -/
theorem test_tcPush_full :
    after (exec (.tcPush 0x41#8)
        (trailState 10#16 [0x68#8, 0x51#8, 0x4E#8, 0x4E#8, 0x4F#8, 0x4F#8, 0x21#8, 0x21#8]))
      (fun t => t.wc == 11#16 && t.responses == [11#40] && trail t ==
        [0x51#8, 0x4E#8, 0x4E#8, 0x4F#8, 0x4F#8, 0x21#8, 0x21#8, 0x41#8]) = true := by decide

theorem test_tcStore :
    after (exec .tcStore (trailState 2#16 [0x67#8, 0x3C#8]))
      (fun t => t.nvc == 2#16 && t.nvb == [(0, 0x67#8), (1, 0x3C#8)]) = true := by decide

/-- V61: A, B, A is suppressed. -/
theorem test_tcPushpair_dup :
    after (exec (.tcPushpair 0x41#8 0x61#8) (trailState 4#16 [0x41#8, 0x61#8, 0x42#8, 0x62#8]))
      (fun t => t.wc == 4#16 && t.dup == 1#1 && t.responses == [4#40]) = true := by decide

/-- V63: a pair that would pass 0xFFFF. -/
theorem test_tcPushpair_overflow :
    after (exec (.tcPushpair 9#8 9#8) (trailState 0xFFFE#16 []))
      (fun t => t.fault == 0x10#8 && t.responses == [0x0500000000#40]) = true := by decide

/-- P3, step 2. -/
theorem test_tcRecord :
    after (exec (.tcRecord 4903 (-7201)) State.reset)
      (fun t => t.responses == [0x00673C0002#40] && trail t == [0x67#8, 0x3C#8]) = true := by decide

/-- V67: the coordinate range is checked before the parity. -/
theorem test_tcRecord_priority :
    after (exec (.tcRecord 9001 0) (trailState 3#16 [])) (fun t => t.fault == 0x40#8) =
      true := by decide

theorem test_tcRead :
    after (exec (.tcRead 7#16) (trailState 0#16 [0#8, 0#8, 0#8, 0#8, 0#8, 0#8, 0#8, 0x41#8]))
      (fun t => t.responses == [0x41#40]) = true := by decide

/-- R231's example. -/
theorem test_tcExport :
    after (exec (.tcExport 0x0010#16)
        (trailState 10#16 [0x68#8, 0x51#8, 0x4E#8, 0x4E#8, 0x4F#8, 0x4F#8, 0x21#8, 0x21#8]))
      (fun t => t.responses == [11#40] && t.pbuf.readRun 24 3 == [0x7C#8, 0x21#8, 0x26#8]) =
      true := by decide

/-- V67: the trailer range is checked before the PBUF range. -/
theorem test_tcExport_priority :
    after (exec (.tcExport 0xFFF0#16) (trailState 0xFFFE#16 [])) (fun t => t.fault == 0x20#8) =
      true := by decide

/-- V71. -/
theorem test_rdreg_pbufsz :
    after (exec (.rdreg 0x0D#8) State.reset) (fun t => t.responses == [0x100#40]) = true := by decide

/-- P3, step 8: `FULL` without `DUP`. -/
theorem test_rdreg_status :
    after (exec (.rdreg 0x08#8) (trailState 8#16 [])) (fun t => t.responses == [2#40]) =
      true := by decide

theorem test_wrreg_strat :
    after (exec (.wrreg 0x04#8 1#8) State.reset) (fun t => t.strat == 1#1) = true := by decide

theorem test_wrreg_readonly :
    after (exec (.wrreg 0x07#8 0#8) State.reset)
      (fun t => t.fault == 0x04#8 && t.responses == [0x0300000000#40]) = true := by decide

theorem test_wrbuf :
    after (exec (.wrbuf 0x00FF#16 0x5A#8) State.reset) (fun t => t.pbuf == [(255, 0x5A#8)]) =
      true := by decide

theorem test_rdbuf :
    after (exec (.rdbuf 0x00FF#16) { State.reset with pbuf := [(255, 0x5A#8)] })
      (fun t => t.responses == [0x5A#40]) = true := by decide

/-- V42. -/
theorem test_addrField :
    addrField [0x57#8, 0x49#8, 0x44#8, 0x45#8, 0x32#8] 1 true =
      [0xAE#8, 0x92#8, 0x88#8, 0x8A#8, 0x64#8, 0x40#8, 0x63#8] := by decide

/-! ### Witnesses: concrete inputs that meet the hypotheses of each statement -/

theorem witness_DecodeOfEncodeIsTheCommand : (Instr.gsClassify (-32768) 32767).wf = true := by decide

theorem witness_EncodeOfDecodeIsTheWord : decode 0x0000000000#40 = some .nop := by decide

theorem witness_WordDecodesToItsOneRow :
    Instr.nop.row ∈ opcodeTable ∧
      0x0000000000#40 &&& Instr.nop.row.mask = Instr.nop.row.pattern := by decide

/-- Reset with one thing presented. -/
def presented (e : HostEvent) : State := { State.reset with pending := [e] }

theorem witness_IllegalWordFaults :
    (presented (.command 0x0600000000#40)).pending = .command 0x0600000000#40 :: [] ∧
      ∀ r ∈ opcodeTable, 0x0600000000#40 &&& r.mask ≠ r.pattern := by decide

theorem witness_StepRunsTheDecodedCommand :
    (presented (.command 0x1000000000#40)).pending = .command 0x1000000000#40 :: [] ∧
      decode 0x1000000000#40 = some .tmMark := by decide

theorem witness_StepIdlesWithoutInput : State.reset.pending = [] := rfl

theorem witness_FetchWordRunsNext : (Instr.emitByte 0x7E#8 true).wf = true := by decide

theorem witness_ResetEventGivesResetValues :
    (presented (.reset ⟨1#8, 2#8, 3#16, [4#8], [5#8]⟩)).pending =
      .reset ⟨1#8, 2#8, 3#16, [4#8], [5#8]⟩ :: [] := rfl

theorem witness_LaunchStateHasResetValues :
    State.launch Config.sample ⟨1#8, 2#8, 3#16, [4#8], [5#8]⟩ [6#8] 7#16 =
      State.launch Config.sample ⟨1#8, 2#8, 3#16, [4#8], [5#8]⟩ [6#8] 7#16 := rfl

theorem witness_InvAtEveryLaunch : Config.sample.wf = true := by decide

/-- The invariant holds of a state that is about to run a command. -/
theorem presented_nop_inv : Inv (presented (.command 0x0000000000#40)) where
  cfgWf := by decide
  wWf := by decide
  pbufWf := by decide
  nvbWf := by decide
  onesLe := by decide
  lineLow := rfl
  symbols := rfl
  statuses := fun _ h => nomatch h
  faultReported := fun c h => absurd (by cases c <;> rfl) h
  freqKnown := .inl rfl

theorem witness_StepKeepsInv :
    Inv (presented (.command 0x0000000000#40)) ∧
      step (presented (.command 0x0000000000#40)) =
        .next (State.reset.answered (responseWord 0#8 0#32)) :=
  ⟨presented_nop_inv, rfl⟩

theorem witness_OneResponsePerCommand :
    runWord 0x0000000000#40 State.reset = .next (State.reset.answered (responseWord 0#8 0#32)) := rfl

theorem witness_FaultBitsAreSticky_success :
    runWord 0x0000000000#40 State.reset = .next (State.reset.answered (responseWord 0#8 0#32)) ∧
      (State.reset.answered (responseWord 0#8 0#32)).responses =
        State.reset.responses ++ [responseWord 0#8 0#32] ∧
      statusOf (responseWord 0#8 0#32) = 0#8 := ⟨rfl, rfl, by decide⟩

theorem witness_FaultBitsAreSticky_fault :
    runWord 0x0600000000#40 State.reset = .next (State.reset.faulted .illegalCmd) ∧
      (State.reset.faulted .illegalCmd).responses =
        State.reset.responses ++ [responseWord 1#8 0#32] ∧
      statusOf (responseWord 1#8 0#32) ≠ 0#8 := ⟨rfl, rfl, by decide⟩

theorem witness_FaultBitsAreSticky_reset :
    step (presented (.reset ⟨0#8, 0#8, 0#16, [], []⟩)) = .next State.reset := rfl

theorem witness_FaultingCommandChangesNothingElse :
    runWord 0x40000000FF#40 State.reset = .next (State.reset.faulted .regAccess) ∧
      (State.reset.faulted .regAccess).responses =
        State.reset.responses ++ [responseWord 3#8 0#32] ∧
      statusOf (responseWord 3#8 0#32) ≠ 0#8 := ⟨rfl, rfl, by decide⟩

theorem witness_CommandsWithoutChecksSucceed : cannotFault .tcStore = true := rfl

theorem witness_StateChangesOnlyByItsWriters :
    exec .nop State.reset = .next (State.reset.answered (responseWord 0#8 0#32)) ∧
      sendsBits .nop = false ∧ Instr.nop ≠ .crcReset ∧ emitsSymbols .nop = false ∧
      (∀ n v, Instr.nop ≠ .wrreg n v) ∧ (∀ lat lon, Instr.nop ≠ .gsClassify lat lon) ∧
      writesDup .nop = false ∧ writesTrail .nop = false ∧ Instr.nop ≠ .tcStore ∧
      writesPbuf .nop = false :=
  ⟨rfl, rfl, by decide, by decide, (fun _ _ h => nomatch h), (fun _ _ h => nomatch h), rfl, rfl,
    by decide, rfl⟩

theorem witness_PersistentStoreChangesOnlyByTcStore :
    step (presented (.command 0x0000000000#40)) =
        .next (State.reset.answered (responseWord 0#8 0#32)) ∧
      ∀ (w : Word40) (rest : List HostEvent),
        (presented (.command 0x0000000000#40)).pending = .command w :: rest →
        decode w ≠ some .tcStore := by
  refine ⟨rfl, fun w rest h => ?_⟩
  simp only [presented, List.cons.injEq, HostEvent.command.injEq] at h
  rw [← h.1]
  decide

theorem witness_CountGrowsByAtMostAPair :
    exec .nop State.reset = .next (State.reset.answered (responseWord 0#8 0#32)) ∧
      Instr.nop ≠ .tcGet := ⟨rfl, by decide⟩

theorem witness_CrcBitShiftsAndFolds :
    true ≠ (0x0000#16).getLsbD 0 ∧ true = (0x0001#16).getLsbD 0 ∧ 15 < 16 := by decide

theorem witness_EmitByteSendsTheByte_data :
    (lineState 4#3 0#1).ones.toNat ≤ 4 ∧
      [true, false, false, false, false, false, false, false, false] =
        (if false then bitsLsbFirst 0x01#8 else stuff 4 (bitsLsbFirst 0x01#8)) := by decide

theorem witness_EmitByteSendsTheByte_flag :
    (lineState 4#3 0#1).ones.toNat ≤ 4 ∧
      [false, true, true, true, true, true, true, false] =
        (if true then bitsLsbFirst 0x7E#8 else stuff 4 (bitsLsbFirst 0x7E#8)) := by decide

theorem witness_EmitStringSendsTheRun_faults :
    State.reset.cfg.pbufSize < (0x00FF#16).toNat + (2#16).toNat := by decide

theorem witness_EmitStringSendsTheRun_runs :
    (0x00FF#16).toNat + (1#16).toNat ≤ State.reset.cfg.pbufSize ∧ State.reset.ones.toNat ≤ 4 ∧
      [0#8] = (List.range (1#16).toNat).map
        (fun k => State.reset.pbuf.read ((0x00FF#16).toNat + k)) ∧
      List.replicate 8 false = stuff State.reset.ones.toNat (dataBits [0#8]) := by decide

theorem witness_EmitCrcSendsTheTrailer :
    State.reset.ones.toNat ≤ 4 ∧
      List.replicate 16 false = bitsLsbFirst ((~~~State.reset.crc).extractLsb' 0 8) ++
        bitsLsbFirst ((~~~State.reset.crc).extractLsb' 8 8) ∧
      List.replicate 16 false = stuff State.reset.ones.toNat (List.replicate 16 false) := by decide

theorem witness_ReceiverRecoversTheString :
    (lineState 4#3 1#1).ones.toNat ≤ 4 ∧
      (0#16).toNat + (256#16).toNat ≤ (lineState 4#3 1#1).cfg.pbufSize := by decide

/-- V27: a stuffed symbol after a run of ones begun earlier. -/
theorem witness_OnlyFlagsHoldSixSymbols_byte :
    sendsData (.emitByte 0x01#8 false) = true ∧ (lineState 4#3 0#1).ones.toNat ≤ 4 ∧
      ∃ t, exec (.emitByte 0x01#8 false) (lineState 4#3 0#1) = .next t ∧
        t.symtrace = (lineState 4#3 0#1).symtrace ++
          [.space, .mark, .space, .mark, .space, .mark, .space, .mark, .space] :=
  ⟨rfl, by decide, _, rfl, by decide⟩

/-- V20 as a string of one byte. -/
theorem witness_OnlyFlagsHoldSixSymbols_string :
    sendsData (.emitString 1#16 1#16) = true ∧ (lineState 0#3 0#1).ones.toNat ≤ 4 ∧
      ∃ t, exec (.emitString 1#16 1#16) { lineState 0#3 0#1 with pbuf := [(1, 0xFF#8)] } = .next t ∧
        t.symtrace = (lineState 0#3 0#1).symtrace ++
          [.space, .space, .space, .space, .space, .mark, .mark, .mark, .mark] :=
  ⟨rfl, by decide, _, rfl, by decide⟩

/-- The trailer of an empty frame: sixteen zeros. -/
theorem witness_OnlyFlagsHoldSixSymbols_crc :
    sendsData .emitCrc = true ∧ State.reset.ones.toNat ≤ 4 ∧
      ∃ t, exec .emitCrc State.reset = .next t ∧
        t.symtrace = State.reset.symtrace ++ (List.replicate 8 [.mark, .space]).flatten :=
  ⟨rfl, by decide, _, rfl, rfl⟩

theorem witness_OnlyFlagsHoldSixSymbols_flag :
    after (exec (.emitByte 0x7E#8 true) State.reset) (fun t => t.symtrace == State.reset.symtrace ++
      [.mark, .mark, .mark, .mark, .mark, .mark, .mark, .space]) = true := by decide

theorem witness_TmMarkEmitsOnePulse :
    State.reset.strat = 0#1 ∧ ({ State.reset with strat := 1#1 } : State).strat = 1#1 := ⟨rfl, rfl⟩

theorem witness_TmSpaceEmitsTwoPulses :
    State.reset.strat = 0#1 ∧ ({ State.reset with strat := 1#1 } : State).strat = 1#1 := ⟨rfl, rfl⟩

theorem witness_StrategyChangesOnlyTheModulation :
    sameButModulation State.reset { State.reset with strat := 1#1, lsbHi := 0x33#8 } ∧
      (∀ n, Instr.rdreg 0x07#8 = .rdreg n → n.toNat < 3 ∨ 6 < n.toNat) := by
  refine ⟨rfl, fun n h => ?_⟩
  cases h
  decide

theorem witness_EverySymbolLastsTwoMarkDelays :
    Inv (presented (.command 0x0000000000#40)) ∧
      (presented (.command 0x0000000000#40)).cfg.tMark =
        2 * (presented (.command 0x0000000000#40)).cfg.tSpace := ⟨presented_nop_inv, rfl⟩

theorem witness_FirstMatchingRegionWins_matches :
    ¬((5200 : Int) = 0 ∧ (1800 : Int) = 0) ∧
      State.reset.cfg.regions =
        sampleRegions.take 3 ++ sampleRegions.getD 3 ⟨[], 0#32⟩ :: sampleRegions.drop 4 ∧
      (∀ b ∈ sampleRegions.take 3, inPoly b.vertices 5200 1800 = false) ∧
      inPoly (sampleRegions.getD 3 ⟨[], 0#32⟩).vertices 5200 1800 = true := by decide

theorem witness_FirstMatchingRegionWins_default :
    ¬((0 : Int) = 0 ∧ (100 : Int) = 0) ∧
      ∀ b ∈ State.reset.cfg.regions, inPoly b.vertices 0 100 = false := by decide

theorem witness_FewerThanThreeVerticesNeverMatch :
    ([⟨0, 0⟩, ⟨100, 100⟩] : List Vertex).length < 3 := by decide

theorem witness_GetAndStoreMakeTheCopiesEqual : Inv (presented (.command 0x0000000000#40)) :=
  presented_nop_inv

theorem witness_TcPushAppendsOrEvicts_overflow : (trailState 0xFFFF#16 []).wc = 0xFFFF#16 := rfl

theorem witness_TcPushAppendsOrEvicts_appends :
    (trailState 7#16 []).wc ≠ 0xFFFF#16 ∧
      (trailState 7#16 []).wc.toNat < (trailState 7#16 []).cfg.cap := by decide

theorem witness_TcPushAppendsOrEvicts_evicts :
    (trailState 8#16 []).wc ≠ 0xFFFF#16 ∧
      (trailState 8#16 []).cfg.cap ≤ (trailState 8#16 []).wc.toNat := by decide

theorem witness_TrailIsABoundedFifo :
    (trailState 0xFFFD#16 []).wc.toNat + [1#8, 2#8].length ≤ 0xFFFF := by decide

/-- A trail of two pairs holds both among its last two. -/
theorem trail_two_pairs (a b c d : Byte) :
    amongLastTwoPairs a b [a, b, c, d] ∧ amongLastTwoPairs c d [a, b, c, d] :=
  ⟨.inr ⟨c, d, [], rfl⟩, .inl ⟨[a, b], rfl⟩⟩

theorem witness_TcPushpair_parity :
    (trailState 3#16 []).cfg.wf = true ∧ (trailState 3#16 []).wc.toNat % 2 = 1 := by decide

theorem witness_TcPushpair_duplicate :
    (trailState 4#16 [0x41#8, 0x61#8, 0x42#8, 0x62#8]).wc.toNat % 2 = 0 ∧
      amongLastTwoPairs 0x41#8 0x61#8
        (trail (trailState 4#16 [0x41#8, 0x61#8, 0x42#8, 0x62#8])) := by
  refine ⟨by decide, ?_⟩
  have h : trail (trailState 4#16 [0x41#8, 0x61#8, 0x42#8, 0x62#8]) =
      [0x41#8, 0x61#8, 0x42#8, 0x62#8] := by decide
  rw [h]
  exact (trail_two_pairs _ _ _ _).1

/-- The eight zero bytes of a full trail nothing has been written to. -/
theorem trail_zeros (wc : Half) (h : 8 ≤ wc.toNat) :
    trail (trailState wc []) = List.replicate 8 0#8 := by
  have h8 : logicalLength (trailState wc []) = 8 := Nat.min_eq_right h
  rw [trail, h8]
  rfl

theorem not_among_zeros : ¬amongLastTwoPairs 9#8 9#8 (List.replicate 8 0#8) := by
  rintro (h | ⟨x, y, h⟩)
  · exact absurd (h.subset (List.mem_cons_self)) (by decide)
  · exact absurd (h.subset (List.mem_cons_self)) (by decide)

theorem witness_TcPushpair_overflow :
    (trailState 0xFFFE#16 []).wc.toNat % 2 = 0 ∧
      ¬amongLastTwoPairs 9#8 9#8 (trail (trailState 0xFFFE#16 [])) ∧
      0xFFFD < (trailState 0xFFFE#16 []).wc.toNat := by
  rw [trail_zeros _ (by decide)]
  exact ⟨by decide, not_among_zeros, by decide⟩

theorem witness_TcPushpair_pushes :
    (trailState 0xFFFC#16 []).wc.toNat % 2 = 0 ∧
      ¬amongLastTwoPairs 9#8 9#8 (trail (trailState 0xFFFC#16 [])) ∧
      (trailState 0xFFFC#16 []).wc.toNat ≤ 0xFFFD := by
  rw [trail_zeros _ (by decide)]
  exact ⟨by decide, not_among_zeros, by decide⟩

theorem witness_SamePairTwiceIsRecordedOnce :
    (trailState 8#16 []).cfg.wf = true ∧ (trailState 8#16 []).wc.toNat % 2 = 0 ∧
      ¬amongLastTwoPairs 9#8 9#8 (trail (trailState 8#16 [])) ∧
      (trailState 8#16 []).wc.toNat ≤ 0xFFFD := by
  rw [trail_zeros _ (by decide)]
  exact ⟨by decide, by decide, not_among_zeros, by decide⟩

/-- The quantised ends of the coordinate range. -/
theorem witness_TcRecord_operands :
    (0x7B#8 : Byte) = BitVec.ofInt 8 (((9000 : Int) + 9100) / 200 + 33) ∧
      (0x21#8 : Byte) = BitVec.ofInt 8 (((-18000 : Int) + 18200) / 400 + 33) ∧
      (0x4E#8 : Byte) = BitVec.ofInt 8 (((0 : Int) + 9100) / 200 + 33) := by decide

theorem witness_TcRecord_range_faults :
    ((-9001 : Int) < -9000 ∨ (9000 : Int) < -9001 ∨ (0 : Int) < -18000 ∨ (18000 : Int) < 0) ∧
      ((0 : Int) < -9000 ∨ (9000 : Int) < 0 ∨ (18001 : Int) < -18000 ∨ (18000 : Int) < 18001) := by
  decide

theorem witness_TcRecord_parity :
    (trailState 3#16 []).cfg.wf = true ∧ (-9000 : Int) ≤ 9000 ∧ (9000 : Int) ≤ 9000 ∧
      (-18000 : Int) ≤ -18000 ∧ (-18000 : Int) ≤ 18000 ∧
      (trailState 3#16 []).wc.toNat % 2 = 1 := by decide

theorem witness_TcRecord_duplicate :
    (trailState 2#16 [0x7B#8, 0x21#8]).wc.toNat % 2 = 0 ∧
      amongLastTwoPairs 0x7B#8 0x21#8 (trail (trailState 2#16 [0x7B#8, 0x21#8])) := by
  refine ⟨by decide, ?_⟩
  have h : trail (trailState 2#16 [0x7B#8, 0x21#8]) = [0x7B#8, 0x21#8] := by decide
  rw [h]
  exact .inl ⟨[], rfl⟩

theorem not_among_zeros_record : ¬amongLastTwoPairs 0x7B#8 0x21#8 (List.replicate 8 0#8) := by
  rintro (h | ⟨x, y, h⟩)
  · exact absurd (h.subset (List.mem_cons_self)) (by decide)
  · exact absurd (h.subset (List.mem_cons_self)) (by decide)

theorem witness_TcRecord_overflow_and_push :
    ((trailState 0xFFFE#16 []).wc.toNat % 2 = 0 ∧
      ¬amongLastTwoPairs 0x7B#8 0x21#8 (trail (trailState 0xFFFE#16 [])) ∧
      0xFFFD < (trailState 0xFFFE#16 []).wc.toNat) ∧
    ((trailState 0xFFFC#16 []).wc.toNat % 2 = 0 ∧
      ¬amongLastTwoPairs 0x7B#8 0x21#8 (trail (trailState 0xFFFC#16 [])) ∧
      (trailState 0xFFFC#16 []).wc.toNat ≤ 0xFFFD) := by
  rw [trail_zeros _ (by decide), trail_zeros _ (by decide)]
  exact ⟨⟨by decide, not_among_zeros_record, by decide⟩,
    ⟨by decide, not_among_zeros_record, by decide⟩⟩

theorem witness_QuantiserIsTheRoundedFormula :
    ((-9000 : Int) ≤ 9000 ∧ (9000 : Int) ≤ 9000) ∧ ((-18000 : Int) ≤ -18000 ∧
      (-18000 : Int) ≤ 18000) := by decide

theorem witness_TcReadReadsTheBuffer :
    (7#16).toNat < State.reset.cfg.cap ∧ State.reset.cfg.cap ≤ (8#16).toNat := by decide

theorem witness_TcExport_faults :
    (trailState 3#16 []).wc.toNat % 2 = 1 ∧
      ((trailState 16380#16 []).wc.toNat % 2 = 0 ∧ 8189 < (trailState 16380#16 []).wc.toNat / 2) ∧
      ((trailState 16378#16 []).wc.toNat % 2 = 0 ∧
        (trailState 16378#16 []).wc.toNat / 2 ≤ 8189 ∧
        (trailState 16378#16 []).cfg.pbufSize < (246#16).toNat +
          min (trailState 16378#16 []).wc.toNat (trailState 16378#16 []).cfg.cap + 3) := by decide

theorem witness_TcExport_writes :
    (trailState 16378#16 []).cfg.wf = true ∧ (trailState 16378#16 []).wc.toNat % 2 = 0 ∧
      (trailState 16378#16 []).wc.toNat / 2 ≤ 8189 ∧
      (245#16).toNat + min (trailState 16378#16 []).wc.toNat (trailState 16378#16 []).cfg.cap + 3 ≤
        (trailState 16378#16 []).cfg.pbufSize := by decide

theorem witness_RdregReadsTheRegisterMap :
    ((0x0D#8 : Byte), (256 : Nat)) ∈ [((0x0D#8 : Byte), State.reset.cfg.pbufSize)] ∧
      0x0D < (0x0E#8 : Byte).toNat := by decide

theorem witness_WrregWritesControlRegisters :
    ((0x04#8 : Byte) = 0x04#8 ∧ (1#8 : Byte).toNat ≤ 1) ∧
      (((0x04#8 : Byte) = 0x04#8 ∧ 1 < (2#8 : Byte).toNat) ∨
        ((0x04#8 : Byte) ≠ 0x04#8 ∧ (0x04#8 : Byte) ≠ 0x05#8 ∧ (0x04#8 : Byte) ≠ 0x06#8)) ∧
      ((0x07#8 : Byte) ≠ 0x04#8 ∧ (0x07#8 : Byte) ≠ 0x05#8 ∧ (0x07#8 : Byte) ≠ 0x06#8) := by decide

theorem witness_WrbufWritesOneByte :
    State.reset.cfg.pbufSize ≤ (256#16).toNat ∧ (255#16).toNat < State.reset.cfg.pbufSize := by
  decide

theorem witness_RdbufReadsOneByte :
    State.reset.cfg.pbufSize ≤ (256#16).toNat ∧ (255#16).toNat < State.reset.cfg.pbufSize := by
  decide

theorem witness_AddressFieldLayout :
    ([0x4E#8, 0x30#8, 0x43#8, 0x41#8, 0x4C#8, 0x4C#8] : List Byte).length ≤ 6 ∧ 15 ≤ 15 ∧
      ([] : List Byte).length ≤ 6 := by decide

end Sys2Proof.Tests
end

section
/-! SUPPORT. What a step does with a presented command word. -/

namespace Sys2Proof.Machine

/-- A step with a command word presented takes that word from the input and runs it (R14). -/
theorem step_of_pending_command {s : State} {w : Word40} {rest : List HostEvent}
    (h : s.pending = .command w :: rest) : step s = runWord w { s with pending := rest } := by
  simp only [step, runNext, h]

/-- A word of the opcode table runs as its command (R95, R96). -/
theorem runWord_of_decode_eq_some {w : Word40} {i : Instr} (h : decode w = some i) (s : State) :
    runWord w s = exec i s := by
  simp only [runWord, h]

/-- Settles O6: the step hands the word to `runWord`, which runs the command it decodes to. -/
theorem stepRunsTheDecodedCommand : Obligations.StepRunsTheDecodedCommand := by
  intro s w rest i hpending hdecode
  calc step s = runWord w { s with pending := rest } := step_of_pending_command hpending
    _ = exec i { s with pending := rest } := runWord_of_decode_eq_some hdecode _

end Sys2Proof.Machine
end

section
/-! SUPPORT. What a command can do, said once: it ends in a fault or in the effect of its own rule
and a response of status 0. And what a presented word and a step can do. -/

namespace Sys2Proof.Machine

variable {i : Instr} {s t u : State}

/-- What a command that completes does to the state `s` before it responds, one constructor per
command (two for a pair push), each with the checks the command has passed. -/
inductive Effect (s : State) : Instr → State → Prop
  | nop : Effect s .nop s
  | crcReset : Effect s .crcReset { s with crc := crcInit }
  | emitByte {v : Byte} {f : Bool} : Effect s (.emitByte v f) (emitBytes f [v] s)
  | emitFlag {c : Half} :
      Effect s (.emitFlag c) (emitBytes true (List.replicate c.toNat flagByte) s)
  | emitString {a l : Half} (ha : pbufRunInRange s.cfg a.toNat l.toNat = true) :
      Effect s (.emitString a l) (emitBytes false (s.pbuf.readRun a.toNat l.toNat) s)
  | emitCrc : Effect s .emitCrc (emitBytes false [lowByte (~~~s.crc), highByte (~~~s.crc)] s)
  | tmMark : Effect s .tmMark (markTone s)
  | tmSpace : Effect s .tmSpace (spaceTone s)
  | gsClassify {lat lon : Int} :
      Effect s (.gsClassify lat lon) { s with freq := classify s.cfg lat lon }
  | tcGet :
      Effect s .tcGet { s with w := s.w.writeRun 0 (s.nvb.readRun 0 s.cfg.cap), wc := s.nvc }
  | tcPush {v : Byte} (hc : s.wc ≠ 0xFFFF#16) : Effect s (.tcPush v) (push v s)
  | tcStore :
      Effect s .tcStore { s with nvb := s.nvb.writeRun 0 (s.w.readRun 0 s.cfg.cap), nvc := s.wc }
  | tcPushpairDuplicate {p q : Byte} (ho : oddCount s = false)
      (hd : isDuplicate p q s = true) :
      Effect s (.tcPushpair p q) { s with dup := 1#1 }
  | tcPushpairNew {p q : Byte} (ho : oddCount s = false)
      (hd : isDuplicate p q s = false) (hc : s.wc.toNat ≤ 0xFFFD) :
      Effect s (.tcPushpair p q) { push q (push p s) with dup := 0#1 }
  | tcRecordDuplicate {lat lon : Int} (hr : coordInRange lat lon = true)
      (ho : oddCount s = false)
      (hd : isDuplicate (qLatByte lat) (qLonByte lon) s = true) :
      Effect s (.tcRecord lat lon) { s with dup := 1#1 }
  | tcRecordNew {lat lon : Int} (hr : coordInRange lat lon = true)
      (ho : oddCount s = false)
      (hd : isDuplicate (qLatByte lat) (qLonByte lon) s = false) (hc : s.wc.toNat ≤ 0xFFFD) :
      Effect s (.tcRecord lat lon) { push (qLonByte lon) (push (qLatByte lat) s) with dup := 0#1 }
  | tcRead {c : Half} (hc : c.toNat < s.cfg.cap) : Effect s (.tcRead c) s
  | tcExport {a : Half} (ho : oddCount s = false) (ht : s.wc.toNat / 2 ≤ 8189)
      (ha : pbufRunInRange s.cfg a.toNat (logicalLength s + 3) = true) :
      Effect s (.tcExport a) { s with pbuf := s.pbuf.writeRun a.toNat (exportBytes s) }
  | rdreg {n : Byte} {r : Word} (hr : readReg n s = some r) : Effect s (.rdreg n) s
  | wrreg {n v : Byte} (b : BitVec 1) (hi lo : Byte)
      (h : writeReg n v s = some { s with strat := b, lsbHi := hi, lsbLo := lo }) :
      Effect s (.wrreg n v) { s with strat := b, lsbHi := hi, lsbLo := lo }
  | wrbuf {a : Half} {v : Byte} (ha : pbufByteInRange s.cfg a.toNat = true) :
      Effect s (.wrbuf a v) { s with pbuf := s.pbuf.write a.toNat v }
  | rdbuf {a : Half} (ha : pbufByteInRange s.cfg a.toNat = true) : Effect s (.rdbuf a) s

/-- How a command ends (R91, R275): a fault on the state it started in, or its effect and a
response of status 0. -/
inductive Ends (i : Instr) (s : State) : State → Prop
  | fault (c : FaultCode) : Ends i s (s.faulted c)
  | success {u : State} (r : Word) (hu : Effect s i u) : Ends i s (u.answered (responseWord 0#8 r))

theorem ends_of_respond {r : Word} (hu : Effect s i u) (h : respond r u = .next t) : Ends i s t :=
  next_inj h ▸ .success r hu

theorem ends_of_raise {c : FaultCode} (h : raise c s = .next t) : Ends i s t :=
  next_inj h ▸ .fault c

/-- A command with one check ends in its effect or in the fault of the check. -/
theorem ends_of_checked {b : Bool} {r : Word} {c : FaultCode} (hu : b = true → Effect s i u)
    (h : (if b then respond r u else raise c s) = .next t) : Ends i s t := by
  split at h
  · exact ends_of_respond (hu ‹_›) h
  · exact ends_of_raise h

/-- The pair push ends in a fault, in the flag of a duplicate, or in both bytes pushed (R226). -/
theorem ends_of_pushPair {p q : Byte} {f : State → Word}
    (hdup : oddCount s = false → isDuplicate p q s = true → Effect s i { s with dup := 1#1 })
    (hnew : oddCount s = false → isDuplicate p q s = false → s.wc.toNat ≤ 0xFFFD →
      Effect s i { push q (push p s) with dup := 0#1 })
    (h : pushPair p q f s = .next t) : Ends i s t := by
  obtain ⟨-, hp⟩ | ⟨ho, hd, hp⟩ | ⟨-, -, -, hp⟩ | ⟨ho, hd, hc, hp⟩ := pushPair_cases p q f s <;>
    obtain rfl := next_inj (hp.symm.trans h)
  · exact .fault _
  · exact .success _ (hdup ho hd)
  · exact .fault _
  · exact .success _ (hnew ho hd hc)

theorem ends_of_execRdreg {n : Byte} (h : execRdreg n s = .next t) : Ends (.rdreg n) s t := by
  unfold execRdreg at h
  split at h
  · exact ends_of_respond (.rdreg ‹_›) h
  · exact ends_of_raise h

theorem effect_of_writeReg {n v : Byte} (h : writeReg n v s = some u) :
    Effect s (.wrreg n v) u := by
  obtain ⟨-, -, rfl⟩ | ⟨-, rfl⟩ | ⟨-, rfl⟩ := writeReg_cases n v s u h
  · exact .wrreg _ s.lsbHi s.lsbLo h
  · exact .wrreg s.strat _ s.lsbLo h
  · exact .wrreg s.strat s.lsbHi _ h

theorem ends_of_execWrreg {n v : Byte} (h : execWrreg n v s = .next t) : Ends (.wrreg n v) s t := by
  unfold execWrreg at h
  split at h
  · rename_i hu
    exact ends_of_respond (effect_of_writeReg hu) h
  · exact ends_of_raise h

theorem ends_of_execTcPush {v : Byte} (h : execTcPush v s = .next t) : Ends (.tcPush v) s t := by
  unfold execTcPush at h
  split at h
  · exact ends_of_raise h
  · exact ends_of_respond (.tcPush ‹_›) h

theorem ends_of_execTcRecord {lat lon : Int} (h : execTcRecord lat lon s = .next t) :
    Ends (.tcRecord lat lon) s t := by
  unfold execTcRecord at h
  split at h
  · exact ends_of_pushPair (.tcRecordDuplicate ‹_›) (.tcRecordNew ‹_›) h
  · exact ends_of_raise h

theorem ends_of_execTcRead {c : Half} (h : execTcRead c s = .next t) : Ends (.tcRead c) s t := by
  unfold execTcRead at h
  split at h
  · exact ends_of_respond (.tcRead ‹_›) h
  · exact ends_of_raise h

theorem ends_of_execTcExport {a : Half} (h : execTcExport a s = .next t) :
    Ends (.tcExport a) s t := by
  unfold execTcExport at h
  split at h
  · exact ends_of_raise h
  · rename_i ho
    split at h
    · exact ends_of_raise h
    · rename_i ht
      exact ends_of_checked (.tcExport (Bool.eq_false_of_not_eq_true ho) (Nat.le_of_not_lt ht)) h

/-- Every command ends in a fault or in its effect. -/
theorem ends_of_exec (h : exec i s = .next t) : Ends i s t := by
  cases i with
  | nop => exact ends_of_respond .nop h
  | crcReset => exact ends_of_respond .crcReset h
  | emitByte v f => exact ends_of_respond .emitByte h
  | emitFlag c => exact ends_of_respond .emitFlag h
  | emitString a l => exact ends_of_checked .emitString h
  | emitCrc => exact ends_of_respond .emitCrc h
  | tmMark => exact ends_of_respond .tmMark h
  | tmSpace => exact ends_of_respond .tmSpace h
  | gsClassify lat lon => exact ends_of_respond .gsClassify h
  | tcGet => exact ends_of_respond .tcGet h
  | tcPush v => exact ends_of_execTcPush h
  | tcStore => exact ends_of_respond .tcStore h
  | tcPushpair p q => exact ends_of_pushPair .tcPushpairDuplicate .tcPushpairNew h
  | tcRecord lat lon => exact ends_of_execTcRecord h
  | tcRead c => exact ends_of_execTcRead h
  | tcExport a => exact ends_of_execTcExport h
  | rdreg n => exact ends_of_execRdreg h
  | wrreg n v => exact ends_of_execWrreg h
  | wrbuf a v => exact ends_of_checked .wrbuf h
  | rdbuf a => exact ends_of_checked .rdbuf h

/-- A presented word ends as its command does; one that is no command ends in ILLEGAL_CMD (R96). -/
theorem runWord_cases {w : Word40} (h : runWord w s = .next t) :
    (decode w = none ∧ t = s.faulted .illegalCmd) ∨ ∃ i, decode w = some i ∧ Ends i s t := by
  cases hw : decode w with
  | none =>
    rw [runWord, hw] at h
    exact .inl ⟨rfl, (next_inj h).symm⟩
  | some i =>
    rw [runWord_of_decode_eq_some hw] at h
    exact .inr ⟨i, rfl, ends_of_exec h⟩

/-- A step idles, takes a command word, or resets (R14, R300, R310). -/
theorem step_cases (h : step s = .next t) :
    (s.pending = [] ∧ t = s) ∨
    (∃ w rest, s.pending = .command w :: rest ∧ runWord w { s with pending := rest } = .next t) ∨
    ∃ v rest, s.pending = .reset v :: rest ∧ t = resetBlock v { s with pending := rest } := by
  unfold step runNext at h
  split at h
  · exact .inl ⟨‹_›, (next_inj h).symm⟩
  · exact .inr (.inl ⟨_, _, ‹_›, h⟩)
  · exact .inr (.inr ⟨_, _, ‹_›, (next_inj h).symm⟩)

end Sys2Proof.Machine
end

section
/-! SUPPORT. The frame of every command: what its effect leaves alone, register by register, and the
statements that follow. In each proof the named cases are the writers. -/

namespace Sys2Proof.Machine

variable {i : Instr} {s t u : State}

theorem Effect.cfg_eq (h : Effect s i u) : u.cfg = s.cfg := by cases h <;> simp

theorem Effect.pending_eq (h : Effect s i u) : u.pending = s.pending := by cases h <;> simp

/-- The effect of a command is not its response. -/
theorem Effect.responses_eq (h : Effect s i u) : u.responses = s.responses := by cases h <;> simp

/-- A command that completes leaves `FAULT` alone (R31). -/
theorem Effect.fault_eq (h : Effect s i u) : u.fault = s.fault := by cases h <;> simp

theorem Effect.crc_eq (h : Effect s i u) (hi : sendsBits i = false) (hr : i ≠ .crcReset) :
    u.crc = s.crc := by
  cases h with
  | crcReset => exact absurd rfl hr
  | emitByte | emitFlag | emitString | emitCrc => cases hi
  | _ => simp

theorem Effect.ones_pol_eq (h : Effect s i u) (hi : sendsBits i = false) :
    u.ones = s.ones ∧ u.pol = s.pol := by
  cases h with
  | emitByte | emitFlag | emitString | emitCrc => cases hi
  | _ => simp

theorem Effect.line_eq (h : Effect s i u) (hi : emitsSymbols i = false) :
    u.txlvl = s.txlvl ∧ u.txtrace = s.txtrace ∧ u.symtrace = s.symtrace := by
  cases h with
  | emitByte | emitFlag | emitString | emitCrc | tmMark | tmSpace => cases hi
  | _ => simp

theorem Effect.modulation_eq (h : Effect s i u) (hi : ∀ n v, i ≠ .wrreg n v) :
    u.strat = s.strat ∧ u.lsbHi = s.lsbHi ∧ u.lsbLo = s.lsbLo := by
  cases h with
  | wrreg => exact absurd rfl (hi _ _)
  | _ => simp

theorem Effect.freq_eq (h : Effect s i u) (hi : ∀ lat lon, i ≠ .gsClassify lat lon) :
    u.freq = s.freq := by
  cases h with
  | gsClassify => exact absurd rfl (hi _ _)
  | _ => simp

theorem Effect.dup_eq (h : Effect s i u) (hi : writesDup i = false) : u.dup = s.dup := by
  cases h with
  | tcPushpairDuplicate | tcPushpairNew | tcRecordDuplicate | tcRecordNew => cases hi
  | _ => simp

theorem Effect.trail_eq (h : Effect s i u) (hi : writesTrail i = false) :
    u.w = s.w ∧ u.wc = s.wc := by
  cases h with
  | tcGet | tcPush | tcPushpairNew | tcRecordNew => cases hi
  | _ => simp

theorem Effect.store_eq (h : Effect s i u) (hi : i ≠ .tcStore) : u.nvb = s.nvb ∧ u.nvc = s.nvc := by
  cases h with
  | tcStore => exact absurd rfl hi
  | _ => simp

theorem Effect.pbuf_eq (h : Effect s i u) (hi : writesPbuf i = false) : u.pbuf = s.pbuf := by
  cases h with
  | wrbuf | tcExport => cases hi
  | _ => simp

/-- Settles O19: a fault writes `FAULT` and its response only; the effect of a command that
completes keeps each register its class does not write. -/
theorem stateChangesOnlyByItsWriters : Obligations.StateChangesOnlyByItsWriters := by
  intro i s t h
  cases ends_of_exec h with
  | fault c => simp
  | success r hu =>
    exact ⟨hu.cfg_eq, hu.pending_eq, hu.crc_eq, hu.ones_pol_eq, hu.line_eq, hu.modulation_eq,
      hu.freq_eq, hu.dup_eq, hu.trail_eq, hu.store_eq, hu.pbuf_eq⟩

/-- Settles O20: idling and reset keep the persistent entries, and of the commands all but TC_STORE
do. -/
theorem persistentStoreChangesOnlyByTcStore : Obligations.PersistentStoreChangesOnlyByTcStore := by
  intro s t h hno
  obtain ⟨-, rfl⟩ | ⟨w, rest, hp, hw⟩ | ⟨v, rest, -, rfl⟩ := step_cases h
  · exact ⟨rfl, rfl⟩
  · obtain ⟨-, rfl⟩ | ⟨i, hi, he⟩ := runWord_cases hw
    · exact ⟨rfl, rfl⟩
    · have hne : i ≠ .tcStore := fun e => hno w rest hp (e ▸ hi)
      cases he with
      | fault c => exact ⟨rfl, rfl⟩
      | success r hu => exact hu.store_eq hne
  · exact ⟨rfl, rfl⟩

/-- Two pushes below the last count but one add two (R221, R226). -/
theorem toNat_wc_push_push {p q : Byte} (hc : s.wc.toNat ≤ 0xFFFD) :
    (push q (push p s)).wc.toNat = s.wc.toNat + 2 := by
  have h1 : (push p s).wc.toNat = s.wc.toNat + 1 := by
    rw [push_wc]
    exact toNat_wc_add_one (by omega)
  rw [push_wc, toNat_wc_add_one (by omega), h1]

/-- The count after an effect: one more after TC_PUSH, two more after a new pair. -/
theorem Effect.wc_bounds (h : Effect s i u) (hi : i ≠ .tcGet) :
    s.wc.toNat ≤ u.wc.toNat ∧ u.wc.toNat ≤ s.wc.toNat + 2 := by
  cases h with
  | tcGet => exact absurd rfl hi
  | tcPush hc =>
    have hlt : s.wc.toNat < 0xFFFF := by
      have : s.wc.toNat ≠ 0xFFFF := fun e => hc (BitVec.eq_of_toNat_eq e)
      omega
    rw [push_wc, toNat_wc_add_one hlt]
    omega
  | tcPushpairNew _ _ hc | tcRecordNew _ _ _ hc => simp only [toNat_wc_push_push hc]; omega
  | _ => simp

/-- Settles O21: a fault leaves the count, an effect moves it by at most a pair. -/
theorem countGrowsByAtMostAPair : Obligations.CountGrowsByAtMostAPair := by
  intro i s t h hi
  cases ends_of_exec h with
  | fault c => simp
  | success r hu => exact hu.wc_bounds hi

/-- The response and the sticky bits of one command word belong together (R31, R91): status 0 and
`FAULT` as it was, or a fault code and its bit set. -/
theorem runWord_response_and_fault {w : Word40} (h : runWord w s = .next t) :
    (∃ r, t.responses = s.responses ++ [responseWord 0#8 r] ∧ t.fault = s.fault) ∨
    ∃ c : FaultCode, t.responses = s.responses ++ [responseWord c.code 0#32] ∧
      t.fault = setFault c s.fault := by
  obtain ⟨-, rfl⟩ | ⟨i, -, he⟩ := runWord_cases h
  · exact .inr ⟨_, rfl, rfl⟩
  · cases he with
    | fault c => exact .inr ⟨c, rfl, rfl⟩
    | success r hu => exact .inl ⟨r, by simp [hu.responses_eq], hu.fault_eq⟩

/-- Settles O16: a response of status 0 comes with `FAULT` unchanged, one of code `c` with the bit
of `c` set, and reset clears the register. -/
theorem faultBitsAreSticky : Obligations.FaultBitsAreSticky := by
  refine ⟨fun w s t r h hr => ?_, fun s t v rest hp h => ?_⟩
  · obtain ⟨x, hx, hf⟩ | ⟨c, hc, hf⟩ := runWord_response_and_fault h
    · obtain rfl : responseWord 0#8 x = r := by simpa [hx] using hr
      exact ⟨fun _ => hf, fun hs => absurd (statusOf_responseWord _ _) hs⟩
    · obtain rfl : responseWord c.code 0#32 = r := by simpa [hc] using hr
      rw [statusOf_responseWord]
      exact ⟨fun hs => absurd hs (code_ne_zero c), fun _ => hf⟩
  · simp only [step, runNext, hp] at h
    rw [← next_inj h]
    rfl

end Sys2Proof.Machine
end

section
/-! SUPPORT. The invariant is kept by every named update of the state, so by every effect, every
fault and every reset, so by every step. -/

namespace Sys2Proof.Machine

variable {i : Instr} {s t u : State}

/-! ### Faults, responses, input, reset -/

/-- Different faults have different sticky bits (R31). -/
theorem mask_and_mask_of_ne {c d : FaultCode} (h : c ≠ d) : c.mask &&& d.mask = 0#8 := by
  revert h
  cases c <;> cases d <;> decide

/-- A bit that stands after a fault is the fault's own or stood before. -/
theorem setFault_and_mask_ne_zero {c d : FaultCode} {x : Byte}
    (h : setFault c x &&& d.mask ≠ 0#8) : c = d ∨ x &&& d.mask ≠ 0#8 := by
  by_cases hcd : c = d
  · exact .inl hcd
  · rw [setFault, BitVec.and_or_distrib_right, mask_and_mask_of_ne hcd, BitVec.or_zero] at h
    exact .inr h

theorem inv_faulted (c : FaultCode) (h : Inv s) : Inv (s.faulted c) :=
  { h with
    statuses := by
      intro r hr
      obtain hr | rfl : r ∈ s.responses ∨ r = responseWord c.code 0#32 := by simpa using hr
      · exact h.statuses r hr
      · exact .inr ⟨c, statusOf_responseWord _ _, resultOf_responseWord _ _⟩
    faultReported := by
      intro d hd
      obtain rfl | hd := setFault_and_mask_ne_zero hd
      · exact ⟨responseWord c.code 0#32, by simp, statusOf_responseWord _ _⟩
      · obtain ⟨r, hr, hs⟩ := h.faultReported d hd
        exact ⟨r, by simp [hr], hs⟩ }

theorem inv_answered (r : Word) (h : Inv s) : Inv (s.answered (responseWord 0#8 r)) :=
  { h with
    statuses := by
      intro x hx
      obtain hx | rfl : x ∈ s.responses ∨ x = responseWord 0#8 r := by simpa using hx
      · exact h.statuses x hx
      · exact .inl (statusOf_responseWord _ _)
    faultReported := by
      intro d hd
      obtain ⟨x, hx, hs⟩ := h.faultReported d hd
      exact ⟨x, by simp [hx], hs⟩ }

theorem inv_pending (es : List HostEvent) (h : Inv s) : Inv { s with pending := es } := { h with }

theorem inv_resetBlock (v : Unspecified) (h : Inv s) : Inv (resetBlock v s) :=
  { h with
    wWf := ⟨Memory.wf_arrayOf _ _, Memory.within_arrayOf _ _⟩
    pbufWf := ⟨Memory.wf_arrayOf _ _, Memory.within_arrayOf _ _⟩
    onesLe := Nat.zero_le 4
    lineLow := rfl
    faultReported := fun _ hd => absurd BitVec.zero_and hd
    freqKnown := .inl rfl }

/-! ### Symbols -/

/-- A symbol leaves a low line low (R24). -/
theorem lineAfter_of_low (h : s.txlvl = 0#1) : lineAfter s = 0#1 := by
  simp [lineAfter, h]

theorem inv_markTone (h : Inv s) : Inv (markTone s) := by
  rw [markTone_eq]
  exact { h with
    lineLow := lineAfter_of_low h.lineLow
    symbols := symbolsOf_append_symbolEvents s .mark _ _ h.symbols }

theorem inv_spaceTone (h : Inv s) : Inv (spaceTone s) := by
  rw [spaceTone_eq]
  exact { h with
    lineLow := lineAfter_of_low h.lineLow
    symbols := symbolsOf_append_symbolEvents s .space _ _ h.symbols }

/-- The run counter stays in 0..4 in both modes (R22). -/
theorem ones_emitBits_le (f : Bool) (bs : List Bool) (h : s.ones.toNat ≤ 4) :
    (emitBits f bs s).ones.toNat ≤ 4 := by
  cases f with
  | false =>
    obtain ⟨hrun, hle, -⟩ := emitBits_data bs s h
    exact hrun ▸ hle
  | true =>
    rw [(emitBits_flag bs s).1]
    split
    · exact h
    · exact Nat.zero_le 4

theorem inv_emitBytes (f : Bool) (vs : List Byte) (h : Inv s) : Inv (emitBytes f vs s) := by
  obtain ⟨xs, hsym, htx, hline⟩ := emitBits_events f (vs.flatMap bitsLsbFirst) s
  rw [emitBytes_frame]
  exact { h with
    onesLe := ones_emitBits_le f _ h.onesLe
    lineLow := by
      refine hline.trans ?_
      split
      · exact h.lineLow
      · exact lineAfter_of_low h.lineLow
    symbols := by
      change symbolsOf (emitBits f _ s).txtrace = some (emitBits f _ s).symtrace
      rw [htx, hsym]
      exact symbolsOf_append s xs _ _ h.symbols }

/-! ### Arrays -/

/-- A legal device holds at least one pair (R11). -/
theorem two_le_cap_of_wf {c : Config} (h : c.wf = true) : 2 ≤ c.cap := by
  simp only [Config.wf, Bool.and_eq_true, decide_eq_true_eq] at h
  omega

/-- A write inside an array keeps it canonical and inside its size. -/
theorem wf_within_write {m : Memory} {a n : Nat} {v : Byte} (ha : a < n)
    (h : m.wf = true ∧ m.within n = true) :
    (m.write a v).wf = true ∧ (m.write a v).within n = true :=
  ⟨Memory.wf_write _ _ _ h.1, Memory.within_write _ _ _ _ ha h.2⟩

/-- A run of writes inside an array keeps it canonical and inside its size. -/
theorem wf_within_writeRun {m : Memory} {a n : Nat} {vs : List Byte} (ha : a + vs.length ≤ n)
    (h : m.wf = true ∧ m.within n = true) :
    (m.writeRun a vs).wf = true ∧ (m.writeRun a vs).within n = true :=
  ⟨Memory.wf_writeRun _ _ _ h.1, Memory.within_writeRun _ _ _ _ ha h.2⟩

theorem inv_push (v : Byte) (h : Inv s) : Inv (push v s) := by
  have hlast : s.cfg.cap - 1 < s.cfg.cap := by
    have := two_le_cap_of_wf h.cfgWf
    omega
  unfold push
  split
  · exact { h with wWf := wf_within_write ‹_› h.wWf }
  · exact { h with wWf := wf_within_write hlast (wf_within_writeRun (by simp) h.wWf) }

theorem inv_dup (d : BitVec 1) (h : Inv s) : Inv { s with dup := d } := { h with }

/-! ### Frequencies -/

/-- A classified point has the default frequency or some region's (R203). -/
theorem classify_known (cfg : Config) (lat lon : Int) :
    classify cfg lat lon = cfg.defaultFreq ∨ ∃ r ∈ cfg.regions, classify cfg lat lon = r.freq := by
  unfold classify
  split
  · exact .inl rfl
  · split
    · exact .inr ⟨_, List.mem_of_find?_eq_some ‹_›, rfl⟩
    · exact .inl rfl

/-! ### Commands and steps -/

theorem inv_of_effect (hu : Effect s i u) (h : Inv s) : Inv u := by
  cases hu with
  | nop | tcRead | rdreg | rdbuf => exact h
  | crcReset => exact { h with }
  | emitByte | emitFlag | emitString | emitCrc => exact inv_emitBytes _ _ h
  | tmMark => exact inv_markTone h
  | tmSpace => exact inv_spaceTone h
  | gsClassify => exact { h with freqKnown := .inr (classify_known _ _ _) }
  | tcGet => exact { h with wWf := wf_within_writeRun (by simp) h.wWf }
  | tcPush => exact inv_push _ h
  | tcStore => exact { h with nvbWf := wf_within_writeRun (by simp) h.nvbWf }
  | tcPushpairDuplicate | tcRecordDuplicate => exact inv_dup _ h
  | tcPushpairNew | tcRecordNew => exact inv_dup _ (inv_push _ (inv_push _ h))
  | tcExport _ _ ha =>
    exact { h with
      pbufWf := wf_within_writeRun (by simpa [pbufRunInRange] using ha) h.pbufWf }
  | wrreg => exact { h with }
  | wrbuf ha =>
    exact { h with pbufWf := wf_within_write (by simpa [pbufByteInRange] using ha) h.pbufWf }

theorem inv_of_ends (he : Ends i s t) (h : Inv s) : Inv t := by
  cases he with
  | fault c => exact inv_faulted c h
  | success r hu => exact inv_answered r (inv_of_effect hu h)

theorem inv_of_runWord {w : Word40} (hw : runWord w s = .next t) (h : Inv s) : Inv t := by
  obtain ⟨-, rfl⟩ | ⟨i, -, he⟩ := runWord_cases hw
  · exact inv_faulted _ h
  · exact inv_of_ends he h

/-- Settles O13: idling, a command word and a reset each keep the invariant. -/
theorem stepKeepsInv : Obligations.StepKeepsInv := by
  intro s t h hstep
  obtain ⟨-, rfl⟩ | ⟨w, rest, -, hw⟩ | ⟨v, rest, -, rfl⟩ := step_cases hstep
  · exact h
  · exact inv_of_runWord hw (inv_pending rest h)
  · exact inv_resetBlock v (inv_pending rest h)

end Sys2Proof.Machine
end

section
/-! SUPPORT. Decoding gives back the command a word was encoded from, and the word the host places
is the one the next step runs. -/

namespace Sys2Proof

/-! ### Fields of an operand word (R92) -/

/-- A field reads back the value placed in it. -/
theorem extract_fieldAt_same {pos n : Nat} (x : BitVec n) (h : pos + n ≤ 32) :
    (fieldAt pos n x).extractLsb' pos n = x := by
  ext j hj
  have hlt : pos + j < 32 := by omega
  simp [fieldAt, hlt, BitVec.getLsbD_eq_getElem hj]

/-- A field that overlaps none of the placed bits reads as zero. -/
theorem extract_fieldAt_disjoint {pos n lo len : Nat} (x : BitVec n)
    (h : lo + len ≤ pos ∨ pos + n ≤ lo) : (fieldAt pos n x).extractLsb' lo len = 0#len := by
  ext j hj
  simp only [fieldAt, BitVec.getElem_extractLsb', BitVec.getLsbD_shiftLeft,
    BitVec.getLsbD_setWidth, BitVec.getElem_zero]
  rcases h with h | h
  · simp [show lo + j < pos by omega]
  · simp [BitVec.getLsbD_of_ge x (lo + j - pos) (by omega)]

/-- Of two fields that do not overlap, each reads back its own value. -/
theorem extract_fieldAt_pair {p n q m : Nat} (x : BitVec n) (y : BitVec m) (hp : p + n ≤ 32)
    (hq : q + m ≤ p) :
    (fieldAt p n x ||| fieldAt q m y).extractLsb' p n = x ∧
      (fieldAt p n x ||| fieldAt q m y).extractLsb' q m = y := by
  simp only [BitVec.extractLsb'_or]
  rw [extract_fieldAt_same x hp, extract_fieldAt_same y (by omega),
    extract_fieldAt_disjoint x (.inl hq), extract_fieldAt_disjoint y (.inr hq)]
  simp

/-- The reserved bits around two placed fields read as zero. -/
theorem extract_fieldAt_pair_disjoint {p n q m lo len : Nat} (x : BitVec n) (y : BitVec m)
    (hp : lo + len ≤ p ∨ p + n ≤ lo) (hq : lo + len ≤ q ∨ q + m ≤ lo) :
    (fieldAt p n x ||| fieldAt q m y).extractLsb' lo len = 0#len := by
  simp only [BitVec.extractLsb'_or]
  rw [extract_fieldAt_disjoint x hp, extract_fieldAt_disjoint y hq, BitVec.or_self]

/-! ### Each format reads back its operands (R92, R93) -/

theorem fmtB_fieldAt (v : Byte) (k : Byte → Instr) : fmtB (fieldAt 0 8 v) k = some (k v) := by
  rw [fmtB, extract_fieldAt_disjoint v (by decide), extract_fieldAt_same v (by decide), if_pos rfl]

theorem fmtC_fieldAt (c : Half) (k : Half → Instr) : fmtC (fieldAt 0 16 c) k = some (k c) := by
  rw [fmtC, extract_fieldAt_disjoint c (by decide), extract_fieldAt_same c (by decide), if_pos rfl]

theorem fmtA_fieldAt (a : Half) (k : Half → Instr) : fmtA (fieldAt 16 16 a) k = some (k a) := by
  rw [fmtA, extract_fieldAt_disjoint a (by decide), extract_fieldAt_same a (by decide), if_pos rfl]

theorem fmtS_fieldAt (a l : Half) (k : Half → Half → Instr) :
    fmtS (fieldAt 16 16 a ||| fieldAt 0 16 l) k = some (k a l) := by
  obtain ⟨ha, hl⟩ := extract_fieldAt_pair a l (p := 16) (q := 0) (by decide) (by decide)
  rw [fmtS, ha, hl]

theorem fmtP_fieldAt {lat lon : Int} (hlat : fitsSigned16 lat = true)
    (hlon : fitsSigned16 lon = true) (k : Int → Int → Instr) :
    fmtP (fieldAt 16 16 (coordField lat) ||| fieldAt 0 16 (coordField lon)) k =
      some (k lat lon) := by
  obtain ⟨h1, h2⟩ := extract_fieldAt_pair (coordField lat) (coordField lon) (p := 16) (q := 0)
    (by decide) (by decide)
  rw [fmtP, h1, h2, coordField_toInt lat hlat, coordField_toInt lon hlon]

theorem fmtQ_fieldAt (p q : Byte) (k : Byte → Byte → Instr) :
    fmtQ (fieldAt 8 8 p ||| fieldAt 0 8 q) k = some (k p q) := by
  obtain ⟨hp, hq⟩ := extract_fieldAt_pair p q (p := 8) (q := 0) (by decide) (by decide)
  rw [fmtQ, extract_fieldAt_pair_disjoint p q (by decide) (by decide), hp, hq, if_pos rfl]

theorem fmtAW_fieldAt (a : Half) (v : Byte) (k : Half → Byte → Instr) :
    fmtAW (fieldAt 16 16 a ||| fieldAt 0 8 v) k = some (k a v) := by
  obtain ⟨ha, hv⟩ := extract_fieldAt_pair a v (p := 16) (q := 0) (by decide) (by decide)
  rw [fmtAW, extract_fieldAt_pair_disjoint a v (by decide) (by decide), ha, hv, if_pos rfl]

theorem fmtBF_fieldAt (v : Byte) (f : Bool) (k : Byte → Bool → Instr) :
    fmtBF (fieldAt 8 1 (BitVec.ofBool f) ||| fieldAt 0 8 v) k = some (k v f) := by
  obtain ⟨-, hv⟩ := extract_fieldAt_pair (BitVec.ofBool f) v (p := 8) (q := 0)
    (by decide) (by decide)
  have hf : (fieldAt 8 1 (BitVec.ofBool f) ||| fieldAt 0 8 v).getLsbD 8 = f := by
    simp [fieldAt]
  rw [fmtBF, extract_fieldAt_pair_disjoint _ v (by decide) (by decide), hv, hf, if_pos rfl]

/-- A well-formed command is read back from its word (R92, R93, R95). -/
theorem decode_encode {i : Instr} (h : i.wf = true) : decode (encode i) = some i := by
  rw [decode_encode_fields]
  cases i with
  | nop | crcReset | emitCrc | tmMark | tmSpace | tcGet | tcStore => rfl
  | emitByte v f => exact fmtBF_fieldAt v f .emitByte
  | emitFlag c => exact fmtC_fieldAt c .emitFlag
  | tcRead c => exact fmtC_fieldAt c .tcRead
  | emitString a l => exact fmtS_fieldAt a l .emitString
  | gsClassify lat lon =>
    obtain ⟨hlat, hlon⟩ := Bool.and_eq_true_iff.mp h
    exact fmtP_fieldAt hlat hlon .gsClassify
  | tcRecord lat lon =>
    obtain ⟨hlat, hlon⟩ := Bool.and_eq_true_iff.mp h
    exact fmtP_fieldAt hlat hlon .tcRecord
  | tcPush v => exact fmtB_fieldAt v .tcPush
  | rdreg n => exact fmtB_fieldAt n .rdreg
  | tcPushpair p q => exact fmtQ_fieldAt p q .tcPushpair
  | wrreg n v => exact fmtQ_fieldAt n v .wrreg
  | tcExport a => exact fmtA_fieldAt a .tcExport
  | rdbuf a => exact fmtA_fieldAt a .rdbuf
  | wrbuf a v => exact fmtAW_fieldAt a v .wrbuf

/-- A 40-bit table word is the command word itself (R90). -/
theorem tableWord_toNat (w : Word40) : tableWord 40 w.toNat = w := by
  rw [tableWord, Nat.mod_eq_of_lt w.isLt, BitVec.ofNat_toNat, BitVec.setWidth_eq]

namespace Machine

/-- Settles O8: the placed word is first in the input, and it decodes to the command it encodes. -/
theorem fetchWordRunsNext : Obligations.FetchWordRunsNext := by
  intro s i h
  rw [State.withFetchWord, tableWord_toNat]
  calc step (presentWord (encode i) s) = runWord (encode i) s := step_of_pending_command rfl
    _ = exec i s := runWord_of_decode_eq_some (decode_encode h) s

end Machine

end Sys2Proof
end

section
/-! SUPPORT. The working and the persistent copy of the trail as data (R79), and the trail after any
number of pushes (R220). -/

namespace Sys2Proof.Machine

/-- Copying a whole array over another of its size makes it that array: canonical arrays that read
the same are the same data. -/
theorem writeRun_readRun_eq {m src : Memory} {n : Nat} (hm : m.wf = true ∧ m.within n = true)
    (hsrc : src.wf = true ∧ src.within n = true) : m.writeRun 0 (src.readRun 0 n) = src := by
  refine Memory.ext_of_read _ _ (Memory.wf_writeRun _ _ _ hm.1) hsrc.1 fun a => ?_
  rw [Memory.read_writeRun, Memory.length_readRun]
  by_cases ha : a < n
  · rw [if_pos (by omega), Memory.getD_readRun _ _ _ _ _ (by omega), Nat.sub_zero, Nat.zero_add]
  · rw [if_neg (by omega), Memory.read_of_within m n a hm.2 (by omega),
      Memory.read_of_within src n a hsrc.2 (by omega)]

/-- Settles O40: each command copies one canonical array of `CAP` bytes whole over the other. -/
theorem getAndStoreMakeTheCopiesEqual : Obligations.GetAndStoreMakeTheCopiesEqual := by
  intro s h
  exact ⟨⟨_, rfl, writeRun_readRun_eq h.nvbWf h.wWf, rfl, rfl, rfl⟩,
    ⟨_, rfl, writeRun_readRun_eq h.wWf h.nvbWf, rfl, rfl, rfl⟩⟩

@[simp] theorem trail_answered (r : Word40) (s : State) : trail (s.answered r) = trail s := rfl

/-- TC_PUSH below the last count pushes and responds with the new count (R223). -/
theorem exec_tcPush {s : State} (v : Byte) (h : s.wc.toNat < 0xFFFF) :
    exec (.tcPush v) s =
      .next ((push v s).answered (responseWord 0#8 (countResult (push v s)))) := by
  have hne : s.wc ≠ 0xFFFF#16 := fun e => absurd h (by rw [e]; decide)
  exact if_neg hne

/-- A command that ends in a next state hands it to the rest of the list (R27). -/
theorem execAll_cons_of_next {i : Instr} {s t : State} (h : exec i s = .next t)
    (is : List Instr) : execAll (i :: is) s = execAll is t := by
  rw [execAll, h]

/-- Settles O42, by induction on the pushed bytes: the first push leaves the last `CAP` bytes of
`trail s ++ [v]`, and keeping the last `CAP` bytes twice is keeping them once. -/
theorem trailIsABoundedFifo : Obligations.TrailIsABoundedFifo := by
  intro vs
  induction vs with
  | nil =>
    intro s _
    refine ⟨s, rfl, ?_, rfl, rfl⟩
    rw [List.append_nil, lastOf_of_length_le (by simpa using logicalLength_le_cap s)]
  | cons v vs ih =>
    intro s hlen
    rw [List.length_cons] at hlen
    have hlt : s.wc.toNat < 0xFFFF := by omega
    have hwc : (push v s).wc.toNat = s.wc.toNat + 1 := by rw [push_wc, toNat_wc_add_one hlt]
    obtain ⟨t, hrun, htrail, hcount, hfault⟩ :=
      ih ((push v s).answered (responseWord 0#8 (countResult (push v s))))
        (by rw [answered_wc, hwc]; omega)
    rw [answered_cfg, push_cfg, trail_answered, trail_push v s hlt, lastOf_append_lastOf,
      List.append_assoc] at htrail
    rw [answered_wc, hwc] at hcount
    rw [answered_fault, push_fault] at hfault
    refine ⟨t, ?_, htrail, ?_, hfault⟩
    · rw [List.map_cons, execAll_cons_of_next (exec_tcPush v hlt), hrun]
    · rw [hcount, List.length_cons]; omega

end Sys2Proof.Machine
end

section
/-! SUPPORT. A decoded command is well-formed and encodes back to its word, and a word decodes
exactly when it is of a row of the opcode table (R92 to R97). -/

namespace Sys2Proof

/-! ### A word is its fields -/

/-- A command word is its opcode and its operand field (R90). -/
theorem word40_eq_of_fields {v w : Word40} (hop : v.extractLsb' 32 8 = w.extractLsb' 32 8)
    (harg : v.extractLsb' 0 32 = w.extractLsb' 0 32) : v = w := by
  have whole : ∀ u : Word40, u.extractLsb' 32 8 ++ u.extractLsb' 0 32 = u := fun u =>
    (BitVec.extractLsb'_append_extractLsb'_eq_extractLsb' rfl).trans BitVec.extractLsb'_eq_self
  rw [← whole v, ← whole w, hop, harg]

@[simp] theorem fieldAt_zero (pos n : Nat) : fieldAt pos n 0#n = 0#32 := by simp [fieldAt]

/-- Placing the bits of `x` from `pos` up keeps those bits and clears the others. -/
theorem getElem_fieldAt_extract (x : Word) {pos n j : Nat} (hj : j < 32) :
    (fieldAt pos n (x.extractLsb' pos n))[j] = (decide (pos ≤ j ∧ j < pos + n) && x[j]) := by
  by_cases hp : pos ≤ j
  · have hlt : j - pos < n ↔ j < pos + n := by omega
    simp [fieldAt, hp, hlt, hj, BitVec.getLsbD_eq_getElem, BitVec.getLsbD_extractLsb']
  · simp [fieldAt, hp, Nat.lt_of_not_le hp]

/-- The low `n` bits of a word and the `m` bits above them make up its low `n + m` bits. -/
theorem fieldAt_extract_low (x : Word) (n m : Nat) {len : Nat} (hlen : len = n + m) :
    fieldAt n m (x.extractLsb' n m) ||| fieldAt 0 n (x.extractLsb' 0 n) =
      fieldAt 0 len (x.extractLsb' 0 len) := by
  subst hlen
  ext j hj
  have hsplit : (n ≤ j ∧ j < n + m) ∨ (0 ≤ j ∧ j < 0 + n) ↔ 0 ≤ j ∧ j < 0 + (n + m) := by omega
  simp only [BitVec.getElem_or, getElem_fieldAt_extract x hj, ← Bool.and_or_distrib_right,
    ← Bool.decide_or, hsplit]

/-- An operand word is its bits from `n` up and its bits below. -/
theorem fields_eq_word (x : Word) (n m : Nat) (h : 32 = n + m) :
    fieldAt n m (x.extractLsb' n m) ||| fieldAt 0 n (x.extractLsb' 0 n) = x := by
  rw [fieldAt_extract_low x n m h]
  simp [fieldAt]

/-- With the bits from `n` up reserved, an operand word is the field below them. -/
theorem low_field_eq_word {x : Word} {n m : Nat} (h : 32 = n + m)
    (hres : x.extractLsb' n m = 0#m) : fieldAt 0 n (x.extractLsb' 0 n) = x := by
  have hx := fields_eq_word x n m h
  rwa [hres, fieldAt_zero, BitVec.zero_or] at hx

/-- One bit of a word is its field of width 1 (the flag-mode bit of format BF). -/
theorem ofBool_getLsbD (x : Word) (j : Nat) :
    BitVec.ofBool (x.getLsbD j) = x.extractLsb' j 1 := by
  ext i hi
  obtain rfl : i = 0 := by omega
  simp

/-! ### What each format reads is the whole operand word (R92, R93)

For each format: a field it accepts is the placed operands it read, since its reserved bits are
zero. -/

section Formats

variable {x : Word} {i : Instr}

theorem fmtZ_eq_some {j : Instr} (h : fmtZ x j = some i) : j = i ∧ 0#32 = x := by
  obtain ⟨hx, hi⟩ := Option.ite_none_right_eq_some.mp h
  exact ⟨Option.some.inj hi, hx.symm⟩

theorem fmtS_eq_some {k : Half → Half → Instr} (h : fmtS x k = some i) :
    ∃ a l, k a l = i ∧ fieldAt 16 16 a ||| fieldAt 0 16 l = x :=
  ⟨_, _, Option.some.inj h, fields_eq_word x 16 16 rfl⟩

theorem fmtP_eq_some {k : Int → Int → Instr} (h : fmtP x k = some i) :
    ∃ a l : Half, k a.toInt l.toInt = i ∧ fieldAt 16 16 a ||| fieldAt 0 16 l = x :=
  ⟨_, _, Option.some.inj h, fields_eq_word x 16 16 rfl⟩

theorem fmtB_eq_some {k : Byte → Instr} (h : fmtB x k = some i) :
    ∃ v, k v = i ∧ fieldAt 0 8 v = x := by
  obtain ⟨hres, hi⟩ := Option.ite_none_right_eq_some.mp h
  exact ⟨_, Option.some.inj hi, low_field_eq_word rfl hres⟩

theorem fmtC_eq_some {k : Half → Instr} (h : fmtC x k = some i) :
    ∃ c, k c = i ∧ fieldAt 0 16 c = x := by
  obtain ⟨hres, hi⟩ := Option.ite_none_right_eq_some.mp h
  exact ⟨_, Option.some.inj hi, low_field_eq_word rfl hres⟩

theorem fmtA_eq_some {k : Half → Instr} (h : fmtA x k = some i) :
    ∃ a, k a = i ∧ fieldAt 16 16 a = x := by
  obtain ⟨hres, hi⟩ := Option.ite_none_right_eq_some.mp h
  have hx := fields_eq_word x 16 16 rfl
  rw [hres, fieldAt_zero, BitVec.or_zero] at hx
  exact ⟨_, Option.some.inj hi, hx⟩

theorem fmtQ_eq_some {k : Byte → Byte → Instr} (h : fmtQ x k = some i) :
    ∃ p q, k p q = i ∧ fieldAt 8 8 p ||| fieldAt 0 8 q = x := by
  obtain ⟨hres, hi⟩ := Option.ite_none_right_eq_some.mp h
  exact ⟨_, _, Option.some.inj hi,
    (fieldAt_extract_low x 8 8 rfl).trans (low_field_eq_word rfl hres)⟩

theorem fmtAW_eq_some {k : Half → Byte → Instr} (h : fmtAW x k = some i) :
    ∃ a v, k a v = i ∧ fieldAt 16 16 a ||| fieldAt 0 8 v = x := by
  obtain ⟨hres, hi⟩ := Option.ite_none_right_eq_some.mp h
  have hlow := fieldAt_extract_low x 8 8 (len := 16) rfl
  rw [hres, fieldAt_zero, BitVec.zero_or] at hlow
  refine ⟨_, _, Option.some.inj hi, ?_⟩
  rw [hlow, fields_eq_word x 16 16 rfl]

theorem fmtBF_eq_some {k : Byte → Bool → Instr} (h : fmtBF x k = some i) :
    ∃ v f, k v f = i ∧ fieldAt 8 1 (BitVec.ofBool f) ||| fieldAt 0 8 v = x := by
  obtain ⟨hres, hi⟩ := Option.ite_none_right_eq_some.mp h
  refine ⟨_, _, Option.some.inj hi, ?_⟩
  rw [ofBool_getLsbD, fieldAt_extract_low x 8 1 (len := 9) rfl, low_field_eq_word rfl hres]

end Formats

/-! ### A decoded command encodes back to its word (R96, R97) -/

/-- Reading an operand field under an opcode gives a well-formed command of just these fields. The
cases are the opcodes in the order of the table of R95, grouped by format; the last is no opcode. -/
theorem decodeFields_eq_some {op : Nat} {x : Word} {i : Instr} (h : decodeFields op x = some i) :
    i.wf = true ∧ i.opcode.toNat = op ∧ i.operands = x := by
  unfold decodeFields at h
  split at h
  case h_1 | h_2 | h_6 | h_7 | h_8 | h_10 | h_12 =>
    obtain ⟨rfl, rfl⟩ := fmtZ_eq_some h
    exact ⟨rfl, rfl, rfl⟩
  case h_3 =>
    obtain ⟨v, f, rfl, rfl⟩ := fmtBF_eq_some h
    exact ⟨rfl, rfl, rfl⟩
  case h_4 | h_15 =>
    obtain ⟨c, rfl, rfl⟩ := fmtC_eq_some h
    exact ⟨rfl, rfl, rfl⟩
  case h_5 =>
    obtain ⟨a, l, rfl, rfl⟩ := fmtS_eq_some h
    exact ⟨rfl, rfl, rfl⟩
  case h_9 | h_14 =>
    obtain ⟨a, l, rfl, rfl⟩ := fmtP_eq_some h
    obtain ⟨hlat, hlat'⟩ := coordField_of_toInt a
    obtain ⟨hlon, hlon'⟩ := coordField_of_toInt l
    exact ⟨Bool.and_eq_true_iff.mpr ⟨hlat, hlon⟩, rfl, by rw [Instr.operands, hlat', hlon']⟩
  case h_11 | h_17 =>
    obtain ⟨v, rfl, rfl⟩ := fmtB_eq_some h
    exact ⟨rfl, rfl, rfl⟩
  case h_13 | h_18 =>
    obtain ⟨p, q, rfl, rfl⟩ := fmtQ_eq_some h
    exact ⟨rfl, rfl, rfl⟩
  case h_16 | h_20 =>
    obtain ⟨a, rfl, rfl⟩ := fmtA_eq_some h
    exact ⟨rfl, rfl, rfl⟩
  case h_19 =>
    obtain ⟨a, v, rfl, rfl⟩ := fmtAW_eq_some h
    exact ⟨rfl, rfl, rfl⟩
  case h_21 => cases h

/-- A word that decodes is the word of a well-formed command (R96, R97). -/
theorem encode_of_decode {w : Word40} {i : Instr} (h : decode w = some i) :
    i.wf = true ∧ encode i = w := by
  obtain ⟨hwf, hop, harg⟩ := decodeFields_eq_some h
  refine ⟨hwf, word40_eq_of_fields ?_ ?_⟩
  · rw [encode_opcode]
    exact BitVec.eq_of_toNat_eq hop
  · rw [encode_operands, harg]

/-! ### The rows of the opcode table (R95) -/

/-- The reserved bits of a command's operand field, by its format (R92). -/
def Instr.reservedBits : Instr → Word
  | .nop | .crcReset | .emitCrc | .tmMark | .tmSpace | .tcGet | .tcStore => 0xFFFFFFFF#32
  | .emitByte _ _ => 0xFFFFFE00#32
  | .tcPush _ | .rdreg _ => 0xFFFFFF00#32
  | .emitFlag _ | .tcRead _ | .tcPushpair _ _ | .wrreg _ _ => 0xFFFF0000#32
  | .emitString _ _ | .gsClassify _ _ | .tcRecord _ _ => 0#32
  | .tcExport _ | .rdbuf _ => 0x0000FFFF#32
  | .wrbuf _ _ => 0x0000FF00#32

/-- The row of every command is one of the twenty. -/
theorem row_mem_opcodeTable (i : Instr) : i.row ∈ opcodeTable := by
  cases i <;> simp [opcodeTable, rowExamples, Instr.row]

/-- Every row of the table is the row of some command. -/
theorem exists_row_of_mem_opcodeTable {r : OpcodeRow} (h : r ∈ opcodeTable) :
    ∃ i : Instr, i.row = r := by
  obtain ⟨i, -, hi⟩ := List.mem_map.mp h
  exact ⟨i, hi⟩

/-- An encoded command is of its own row. -/
theorem encode_matches_row : ∀ i : Instr, encode i &&& i.row.mask = i.row.pattern
  | .nop => Laws.EncodedRow.nop
  | .crcReset => Laws.EncodedRow.crcReset
  | .emitByte v f => Laws.EncodedRow.emitByte v f
  | .emitFlag c => Laws.EncodedRow.emitFlag c
  | .emitString a l => Laws.EncodedRow.emitString a l
  | .emitCrc => Laws.EncodedRow.emitCrc
  | .tmMark => Laws.EncodedRow.tmMark
  | .tmSpace => Laws.EncodedRow.tmSpace
  | .gsClassify lat lon => Laws.EncodedRow.gsClassify lat lon
  | .tcGet => Laws.EncodedRow.tcGet
  | .tcPush v => Laws.EncodedRow.tcPush v
  | .tcStore => Laws.EncodedRow.tcStore
  | .tcPushpair p q => Laws.EncodedRow.tcPushpair p q
  | .tcRecord lat lon => Laws.EncodedRow.tcRecord lat lon
  | .tcRead c => Laws.EncodedRow.tcRead c
  | .tcExport a => Laws.EncodedRow.tcExport a
  | .rdreg n => Laws.EncodedRow.rdreg n
  | .wrreg n v => Laws.EncodedRow.wrreg n v
  | .wrbuf a v => Laws.EncodedRow.wrbuf a v
  | .rdbuf a => Laws.EncodedRow.rdbuf a

/-- The mask of a row covers the opcode and the reserved bits (R95). -/
theorem row_mask_fields (i : Instr) :
    i.row.mask.extractLsb' 32 8 = BitVec.allOnes 8 ∧
      i.row.mask.extractLsb' 0 32 = i.reservedBits := by
  cases i <;> simp [Instr.row, Instr.reservedBits]

/-- The pattern of a row is the opcode with a zero operand field (R95). -/
theorem row_pattern_fields (i : Instr) :
    i.row.pattern.extractLsb' 32 8 = i.opcode ∧ i.row.pattern.extractLsb' 0 32 = 0#32 := by
  cases i <;> simp [Instr.row, Instr.opcode]

/-- A word of a command's row has its opcode and zero reserved bits. -/
theorem fields_of_matches_row {w : Word40} {i : Instr} (h : w &&& i.row.mask = i.row.pattern) :
    w.extractLsb' 32 8 = i.opcode ∧ w.extractLsb' 0 32 &&& i.reservedBits = 0#32 := by
  obtain ⟨hmaskOp, hmaskArg⟩ := row_mask_fields i
  obtain ⟨hop, harg⟩ := row_pattern_fields i
  constructor
  · rw [← hop, ← h, BitVec.extractLsb'_and, hmaskOp, BitVec.and_allOnes]
  · rw [← harg, ← h, BitVec.extractLsb'_and, hmaskArg]

/-- A field that a mask covers is zero when the masked word is. -/
theorem extract_eq_zero_of_and {x m : Word} {lo len : Nat} (h : x &&& m = 0#32)
    (hm : m.extractLsb' lo len = BitVec.allOnes len) : x.extractLsb' lo len = 0#len := by
  calc x.extractLsb' lo len = (x &&& m).extractLsb' lo len := by
        rw [BitVec.extractLsb'_and, hm, BitVec.and_allOnes]
    _ = 0#len := by rw [h, BitVec.extractLsb'_zero]

/-- With a row's opcode and zero reserved bits, the operand field reads as a command of the row. -/
theorem decodeFields_of_reserved_zero (i : Instr) {x : Word} (h : x &&& i.reservedBits = 0#32) :
    ∃ j, decodeFields i.opcode.toNat x = some j ∧ j.row = i.row := by
  cases i with
  | nop | crcReset | emitCrc | tmMark | tmSpace | tcGet | tcStore =>
    exact ⟨_, if_pos (BitVec.and_allOnes.symm.trans h), rfl⟩
  | emitString a l | gsClassify lat lon | tcRecord lat lon => exact ⟨_, rfl, rfl⟩
  | emitByte v f =>
    exact ⟨_, if_pos (extract_eq_zero_of_and (m := 0xFFFFFE00#32) h (by decide)), rfl⟩
  | tcPush v | rdreg v =>
    exact ⟨_, if_pos (extract_eq_zero_of_and (m := 0xFFFFFF00#32) h (by decide)), rfl⟩
  | emitFlag c | tcRead c | tcPushpair p q | wrreg n v =>
    exact ⟨_, if_pos (extract_eq_zero_of_and (m := 0xFFFF0000#32) h (by decide)), rfl⟩
  | tcExport a | rdbuf a =>
    exact ⟨_, if_pos (extract_eq_zero_of_and (m := 0x0000FFFF#32) h (by decide)), rfl⟩
  | wrbuf a v =>
    exact ⟨_, if_pos (extract_eq_zero_of_and (m := 0x0000FF00#32) h (by decide)), rfl⟩

/-- A word of a row decodes to a command of that row (R95). -/
theorem decode_of_matches_row {w : Word40} {r : OpcodeRow} (hr : r ∈ opcodeTable)
    (h : w &&& r.mask = r.pattern) : ∃ i, decode w = some i ∧ i.row = r := by
  obtain ⟨i, rfl⟩ := exists_row_of_mem_opcodeTable hr
  obtain ⟨hop, hres⟩ := fields_of_matches_row h
  rw [decode, hop]
  exact decodeFields_of_reserved_zero i hres

/-- A word that decodes is of its command's row (R95). -/
theorem matches_row_of_decode {w : Word40} {i : Instr} (h : decode w = some i) :
    w &&& i.row.mask = i.row.pattern := by
  obtain ⟨-, rfl⟩ := encode_of_decode h
  exact encode_matches_row i

/-- A word of no row is illegal (R96). -/
theorem decode_eq_none_of_no_row {w : Word40}
    (h : ∀ r ∈ opcodeTable, w &&& r.mask ≠ r.pattern) : decode w = none :=
  Option.eq_none_iff_forall_ne_some.mpr fun i hi =>
    h i.row (row_mem_opcodeTable i) (matches_row_of_decode hi)

/-! ### The statements -/

/-- Settles O1: each word is evaluated. -/
theorem specWordsDecode : Obligations.SpecWordsDecode := by
  unfold Obligations.SpecWordsDecode
  decide

/-- Settles O2: every format reads back the operands its encoding places. -/
theorem decodeOfEncodeIsTheCommand : Obligations.DecodeOfEncodeIsTheCommand :=
  fun _ hwf => decode_encode hwf

/-- Settles O3: the fields a format reads, with its reserved bits zero, are the whole word. -/
theorem encodeOfDecodeIsTheWord : Obligations.EncodeOfDecodeIsTheWord :=
  fun _ _ h => encode_of_decode h

/-- Settles O4: a word that decodes is its command's encoding, which is of its row; a word of a row
has the row's opcode and zero reserved bits, so it decodes; and it decodes to one command, so to one
row. -/
theorem wordDecodesToItsOneRow : Obligations.WordDecodesToItsOneRow := by
  refine ⟨fun w i h => ⟨row_mem_opcodeTable i, matches_row_of_decode h⟩,
    fun w r hr h => decode_of_matches_row hr h, fun w r r' hr hr' h h' => ?_⟩
  obtain ⟨i, hi, rfl⟩ := decode_of_matches_row hr h
  obtain ⟨j, hj, rfl⟩ := decode_of_matches_row hr' h'
  rw [Option.some.inj (hi.symm.trans hj)]

namespace Machine

/-- A word that is no command ends in ILLEGAL_CMD on the state it was presented to (R96). -/
theorem runWord_of_decode_eq_none {w : Word40} (h : decode w = none) (s : State) :
    runWord w s = .next (s.faulted .illegalCmd) := by
  rw [runWord, h, raise_eq]

/-- Settles O5: a word of no row does not decode, so the step takes the fault ILLEGAL_CMD. -/
theorem illegalWordFaults : Obligations.IllegalWordFaults := by
  intro s w rest hpending hrow
  rw [step_of_pending_command hpending, runWord_of_decode_eq_none (decode_eq_none_of_no_row hrow)]
  rfl

/-- Settles O15: the response word carries status 0, or the code of the fault and result 0. -/
theorem oneResponsePerCommand : Obligations.OneResponsePerCommand := by
  intro w s t h
  obtain ⟨r, hr, -⟩ | ⟨c, hc, -⟩ := runWord_response_and_fault h
  · exact ⟨_, hr, .inl (statusOf_responseWord _ _)⟩
  · exact ⟨_, hc, .inr ⟨c, statusOf_responseWord _ _, resultOf_responseWord _ _⟩⟩

end Machine

end Sys2Proof
end

section
/-! SUPPORT. The arithmetic of the CRC: one bit of it bit by bit (spec/40 R121), its linearity, and
the residue every trailer leaves (R129). -/

namespace Sys2Proof.Machine

theorem crcBit_of_ne {b : Bool} {c : Half} (h : b ≠ c.getLsbD 0) :
    crcBit b c = (c >>> 1) ^^^ crcPoly :=
  if_pos (bne_iff_ne.mpr h)

theorem crcBit_of_eq {b : Bool} {c : Half} (h : b = c.getLsbD 0) : crcBit b c = c >>> 1 :=
  if_neg (by simp [h])

/-- The polynomial has the bits 3, 10 and 15. -/
theorem getLsbD_crcPoly {j : Nat} (hj : j < 16) :
    crcPoly.getLsbD j = (j == 3 || j == 10 || j == 15) := by
  revert j
  decide

theorem getLsbD_crcBit (b : Bool) (c : Half) {j : Nat} (hj : j < 16) :
    (crcBit b c).getLsbD j =
      (c.getLsbD (j + 1) ^^ ((b ^^ c.getLsbD 0) && (j == 3 || j == 10 || j == 15))) := by
  by_cases h : b = c.getLsbD 0
  · rw [crcBit_of_eq h, h, BitVec.getLsbD_ushiftRight, Nat.add_comm]
    simp
  · rw [crcBit_of_ne h, BitVec.getLsbD_xor, getLsbD_crcPoly hj, BitVec.getLsbD_ushiftRight,
      Nat.add_comm, Bool.eq_not_of_ne h]
    simp

/-- The CRC is linear: a complemented bit adds what a one adds to an empty CRC. -/
theorem crcBit_not_xor (b : Bool) (c d : Half) :
    crcBit (!b) (c ^^^ d) = crcBit b c ^^^ crcBit true d := by
  refine BitVec.eq_of_getLsbD_eq fun j hj => ?_
  simp only [BitVec.getLsbD_xor, getLsbD_crcBit _ _ hj]
  generalize c.getLsbD (j + 1) = cj, d.getLsbD (j + 1) = dj, c.getLsbD 0 = c0, d.getLsbD 0 = d0,
    (j == 3 || j == 10 || j == 15) = p
  revert b cj dj c0 d0 p
  decide

theorem crcBits_map_not_xor (bs : List Bool) (c d : Half) :
    crcBits (c ^^^ d) (bs.map (!·)) = crcBits c bs ^^^ crcBits d (List.replicate bs.length true) := by
  induction bs generalizing c d with
  | nil => rfl
  | cons b bs ih =>
    refine Eq.trans ?_ (ih (crcBit b c) (crcBit true d))
    rw [← crcBit_not_xor]
    rfl

/-- A CRC that is sent its own bits shifts them out and folds nothing in. -/
theorem crcBits_own_bits (c : Half) (n : Nat) :
    crcBits c ((List.range n).map c.getLsbD) = c >>> n := by
  induction n with
  | zero => simp [crcBits]
  | succ n ih =>
    rw [List.range_succ, List.map_append, crcBits_append, ih, BitVec.shiftRight_add]
    exact crcBit_of_eq (by simp)

/-- The trailer bits are the complement of the CRC's own bits, lowest first (R127). -/
theorem dataBits_trailer (c : Half) :
    dataBits [lowByte (~~~c), highByte (~~~c)] = ((List.range 16).map c.getLsbD).map (!·) := by
  simp [dataBits, bitsLsbFirst, lowByte, highByte, List.range_succ]

/-- The residue (R129): the trailer leaves what sixteen ones leave on an empty CRC. -/
theorem crcBits_trailer (c : Half) :
    crcBits c (dataBits [lowByte (~~~c), highByte (~~~c)]) = 0xF0B8#16 := by
  have hshift : c >>> 16 = 0#16 := BitVec.ushiftRight_eq_zero (Nat.le_refl 16)
  calc crcBits c (dataBits [lowByte (~~~c), highByte (~~~c)])
      = crcBits (c ^^^ 0#16) (((List.range 16).map c.getLsbD).map (!·)) := by
        rw [dataBits_trailer, BitVec.xor_zero]
    _ = c >>> 16 ^^^ crcBits 0#16 (List.replicate 16 true) := by
        rw [crcBits_map_not_xor, crcBits_own_bits, List.length_map, List.length_range]
    _ = 0xF0B8#16 := by
        rw [hshift]
        simp [crcBits, crcBit, crcPoly, List.replicate_succ]

/-- Settles O22: the next state is written out in the command's meaning (R123). -/
theorem crcResetLoadsTheInitialValue : Obligations.CrcResetLoadsTheInitialValue :=
  fun _ => rfl

/-- Settles O23: the two cases of the bit step, and both read bit by bit. -/
theorem crcBitShiftsAndFolds : Obligations.CrcBitShiftsAndFolds :=
  fun b c => ⟨crcBit_of_ne, crcBit_of_eq, fun _ hj => getLsbD_crcBit b c hj⟩

end Sys2Proof.Machine
end

section
/-! SUPPORT. What a command that sends bytes does, said once for a run of bytes in either mode (spec/40
R122); then EMIT_BYTE, EMIT_FLAG, EMIT_STRING and EMIT_CRC as such runs, and the longest run of ones on
a stuffed line (R128). -/

namespace Sys2Proof.Machine

variable {s t : State} {i : Instr} {f : Bool} {vs : List Byte}

/-! ### A run of bytes on the line -/

/-- The line bits of data bits in either mode, `k` ones preceding: as they are in flag mode, stuffed
in data mode (R122). -/
def lineBits (f : Bool) (k : Nat) (bs : List Bool) : List Bool := if f then bs else stuff k bs

@[simp] theorem dataBits_nil : dataBits [] = [] := rfl

@[simp] theorem dataBits_cons (v : Byte) (vs : List Byte) :
    dataBits (v :: vs) = bitsLsbFirst v ++ dataBits vs := rfl

theorem dataBits_eq_nil_iff : dataBits vs = [] ↔ vs = [] := by
  rw [← List.length_eq_zero_iff, length_dataBits, ← List.length_eq_zero_iff]
  omega

theorem emitBytes_crc (f : Bool) (vs : List Byte) (s : State) :
    (emitBytes f vs s).crc = crcBits s.crc (dataBits vs) :=
  emitBits_crc f _ s

theorem emitBytes_ones_data (vs : List Byte) (h : s.ones.toNat ≤ 4) :
    (emitBytes false vs s).ones.toNat = runAfter s.ones.toNat (dataBits vs) :=
  (emitBits_data _ s h).1

theorem emitBytes_ones_flag (vs : List Byte) (s : State) :
    (emitBytes true vs s).ones = if vs = [] then s.ones else 0#3 := by
  obtain ⟨hones, -⟩ := emitBits_flag (dataBits vs) s
  simp only [dataBits_eq_nil_iff] at hones
  exact hones

/-- The polarity and the symbols are those of the line bits. Data mode needs the run counter in the
range R22 gives it between commands. -/
theorem emitBytes_line (vs : List Byte) (h : f = false → s.ones.toNat ≤ 4) :
    (emitBytes f vs s).pol = polarityAfter s.pol (lineBits f s.ones.toNat (dataBits vs)) ∧
    (emitBytes f vs s).symtrace =
      s.symtrace ++ nrziSymbols s.pol (lineBits f s.ones.toNat (dataBits vs)) := by
  cases f with
  | false =>
    obtain ⟨-, -, hline⟩ := emitBits_data (dataBits vs) s (h rfl)
    exact hline
  | true => exact (emitBits_flag (dataBits vs) s).2

theorem emitBytes_txtrace (vs : List Byte) (h : f = false → s.ones.toNat ≤ 4) :
    (emitBytes f vs s).txtrace = s.txtrace ++
      (nrziSymbols s.pol (lineBits f s.ones.toNat (dataBits vs))).flatMap (symbolEvents s) :=
  emitBits_txtrace f _ s _ (emitBytes_line vs h).2

theorem emitBytes_txlvl (f : Bool) (hvs : vs ≠ []) (s : State) :
    (emitBytes f vs s).txlvl = lineAfter s := by
  obtain ⟨-, -, -, hline⟩ := emitBits_events f (dataBits vs) s
  exact hline.trans (if_neg (mt dataBits_eq_nil_iff.mp hvs))

/-- The result of a command that counts is the number of line bits (R101). -/
theorem emitAndCount_eq (vs : List Byte) (h : f = false → s.ones.toNat ≤ 4) :
    emitAndCount f vs s = .next ((emitBytes f vs s).answered
      (responseWord 0#8 (BitVec.ofNat 32 (lineBits f s.ones.toNat (dataBits vs)).length))) := by
  rw [emitAndCount, respond_eq, symbolsSince, (emitBytes_line vs h).2, List.length_append,
    Nat.add_sub_cancel_left, length_nrziSymbols]

/-- A command that sends bytes gives one response. -/
theorem answered_emitBytes_responses (f : Bool) (vs : List Byte) (s : State) (r : Word40) :
    ((emitBytes f vs s).answered r).responses = s.responses ++ [r] := by
  rw [answered_responses, emitBytes_responses]

/-- The frame of a command that sends bytes (R124 to R127): nothing but the encoder's registers, the
line, the traces and the responses changes. -/
theorem answered_emitBytes_frame (f : Bool) (vs : List Byte) (s : State) (r : Word40)
    (ht : t = (emitBytes f vs s).answered r) :
    t = { s with crc := t.crc, ones := t.ones, pol := t.pol, txlvl := t.txlvl,
                 txtrace := t.txtrace, symtrace := t.symtrace, responses := t.responses } := by
  subst ht
  rw [emitBytes_frame]
  rfl

/-- A command that sends bytes equals EMIT_BYTE of each in turn, the responses apart. -/
theorem answered_emitBytes_eq_execAll (f : Bool) (vs : List Byte) (s : State) (r : Word40)
    (ht : t = (emitBytes f vs s).answered r) :
    ∃ u, execAll (vs.map (fun v => .emitByte v f)) s = .next u ∧
      t = { u with responses := t.responses } := by
  obtain ⟨u, hrun, hu⟩ := execAll_emitByte f vs s
  refine ⟨u, hrun, ?_⟩
  rw [ht, ← hu]
  rfl

/-! ### EMIT_BYTE -/

/-- A byte is eight line bits in flag mode and at most two more in data mode (R124). -/
theorem length_lineBits_byte (f : Bool) (v : Byte) {k : Nat} (hk : k ≤ 4) :
    8 ≤ (lineBits f k (bitsLsbFirst v)).length ∧ (lineBits f k (bitsLsbFirst v)).length ≤ 10 := by
  have hlen : (bitsLsbFirst v).length = 8 := rfl
  cases f with
  | true => exact ⟨Nat.le_refl 8, Nat.le_add_right 8 2⟩
  | false =>
    have hstuff := length_stuff k (bitsLsbFirst v) hk
    simp only [lineBits, Bool.false_eq_true, if_false]
    omega

/-- Settles O24: one byte is a run of one byte, in either mode. -/
theorem emitByteSendsTheByte : Obligations.EmitByteSendsTheByte := by
  rintro v f s _ hones rfl
  obtain ⟨hge, hle⟩ := length_lineBits_byte f v hones
  obtain ⟨hpol, hsym⟩ := emitBytes_line (f := f) [v] fun _ => hones
  have htx := emitBytes_txtrace (f := f) [v] fun _ => hones
  have hrun := emitAndCount_eq (f := f) [v] fun _ => hones
  rw [dataBits_cons, dataBits_nil, List.append_nil] at hpol hsym htx hrun
  refine ⟨hge, hle, _, hrun, emitBytes_crc f [v] s, ?_, hpol, hsym, htx,
    emitBytes_txlvl f (List.cons_ne_nil v []) s, answered_emitBytes_responses f _ s _,
    answered_emitBytes_frame f _ s _ rfl⟩
  cases f with
  | true => exact congrArg BitVec.toNat (emitBytes_ones_flag [v] s)
  | false => exact emitBytes_ones_data [v] hones

/-! ### EMIT_FLAG -/

theorem polarityAfter_flagByte (p : BitVec 1) : polarityAfter p (bitsLsbFirst flagByte) = p := by
  revert p
  decide

/-- One flip, six holds, one flip (R128). -/
theorem nrziSymbols_flagByte (p : BitVec 1) : nrziSymbols p (bitsLsbFirst flagByte) =
    List.replicate 7 (symbolOf (~~~p)) ++ [symbolOf p] := by
  revert p
  decide

theorem polarityAfter_flags (p : BitVec 1) (n : Nat) :
    polarityAfter p (dataBits (List.replicate n flagByte)) = p := by
  induction n with
  | zero => rfl
  | succ n ih =>
    rw [List.replicate_succ, dataBits_cons, polarityAfter_append, polarityAfter_flagByte, ih]

theorem nrziSymbols_flags (p : BitVec 1) (n : Nat) :
    nrziSymbols p (dataBits (List.replicate n flagByte)) =
      (List.replicate n (List.replicate 7 (symbolOf (~~~p)) ++ [symbolOf p])).flatten := by
  induction n with
  | zero => rfl
  | succ n ih =>
    rw [List.replicate_succ, dataBits_cons, nrziSymbols_append, nrziSymbols_flagByte,
      polarityAfter_flagByte, ih]
    rfl

/-- Settles O25: a run of flag bytes in flag mode; each keeps the polarity, so each gives the same
eight symbols. -/
theorem emitFlagSendsFlags : Obligations.EmitFlagSendsFlags := by
  intro c s
  obtain ⟨hpol, hsym⟩ := emitBytes_line (f := true) (s := s) (List.replicate c.toNat flagByte) nofun
  have hrun := emitAndCount_eq (f := true) (s := s) (List.replicate c.toNat flagByte) nofun
  refine ⟨_, hrun, emitBytes_crc true _ s, ?_, hpol.trans (polarityAfter_flags _ _),
    hsym.trans (congrArg _ (nrziSymbols_flags _ _)),
    (answered_emitBytes_responses true _ s _).trans ?_, ?_, answered_emitBytes_frame true _ s _ rfl⟩
  · rw [answered_ones, emitBytes_ones_flag]
    simp [← BitVec.toNat_inj]
  · simp [lineBits]
  · simpa only [List.map_replicate, flagByte] using
      answered_emitBytes_eq_execAll true (List.replicate c.toNat flagByte) s _ rfl

/-! ### EMIT_STRING -/

theorem exec_emitString_of_outOfRange {a l : Half} (h : s.cfg.pbufSize < a.toNat + l.toNat) :
    exec (.emitString a l) s = .next (s.faulted .pbufRange) :=
  if_neg (by simpa [pbufRunInRange] using h)

/-- A run inside PBUF is sent in data mode (R126). -/
theorem exec_emitString_of_inRange {a l : Half} (h : a.toNat + l.toNat ≤ s.cfg.pbufSize)
    (hones : s.ones.toNat ≤ 4) :
    exec (.emitString a l) s =
      .next ((emitBytes false (s.pbuf.readRun a.toNat l.toNat) s).answered (responseWord 0#8
        (BitVec.ofNat 32
          (stuff s.ones.toNat (dataBits (s.pbuf.readRun a.toNat l.toNat))).length))) :=
  (if_pos (decide_eq_true h)).trans (emitAndCount_eq (f := false) _ fun _ => hones)

/-- Settles O26: the range check decides between the fault and a run of bytes in data mode. -/
theorem emitStringSendsTheRun : Obligations.EmitStringSendsTheRun := by
  refine fun a l s => ⟨exec_emitString_of_outOfRange, ?_⟩
  rintro hrange hones _ rfl _ rfl
  obtain ⟨hpol, hsym⟩ := emitBytes_line (f := false) (s.pbuf.readRun a.toNat l.toNat) fun _ => hones
  refine ⟨_, exec_emitString_of_inRange hrange hones, emitBytes_crc false _ s,
    emitBytes_ones_data _ hones, hpol, hsym, answered_emitBytes_responses false _ s _,
    answered_emitBytes_eq_execAll false _ s _ rfl, answered_emitBytes_frame false _ s _ rfl⟩

/-- Settles O28: NRZI decoding undoes the line code's second half and destuffing its first. -/
theorem receiverRecoversTheString : Obligations.ReceiverRecoversTheString := by
  intro a l s hones hrange
  obtain ⟨-, hsym⟩ := emitBytes_line (f := false) (s.pbuf.readRun a.toNat l.toNat) fun _ => hones
  refine ⟨_, _, exec_emitString_of_inRange hrange hones, hsym, ?_, ?_⟩
  · rw [nrziDecode_nrziSymbols]
    exact destuff_stuff _ _ hones
  · obtain ⟨hle, -⟩ := length_stuff s.ones.toNat (dataBits (s.pbuf.readRun a.toNat l.toNat)) hones
    rw [length_dataBits, Memory.length_readRun] at hle
    rwa [length_nrziSymbols]

/-! ### EMIT_CRC -/

/-- Settles O27: the latched trailer is a run of two bytes in data mode, and its bits bring every CRC
to the residue. -/
theorem emitCrcSendsTheTrailer : Obligations.EmitCrcSendsTheTrailer := by
  rintro s _ _ hones rfl rfl
  obtain ⟨hpol, hsym⟩ :=
    emitBytes_line (f := false) [lowByte (~~~s.crc), highByte (~~~s.crc)] fun _ => hones
  refine ⟨_, rfl, (emitBytes_crc false _ s).trans (crcBits_trailer s.crc),
    emitBytes_ones_data _ hones, hpol, hsym, emitBytes_txtrace (f := false) _ fun _ => hones,
    emitBytes_txlvl false (List.cons_ne_nil _ _) s, answered_emitBytes_responses false _ s _,
    answered_emitBytes_eq_execAll false [lowByte (~~~s.crc), highByte (~~~s.crc)] s _ rfl,
    answered_emitBytes_frame false _ s _ rfl⟩

/-! ### No six holding symbols in data mode -/

/-- A zero ends a run: six ones that follow fewer than six ones and a zero stand after the zero. -/
theorem six_ones_after_zero {k : Nat} {bs : List Bool} (hk : k < 6)
    (h : List.replicate 6 true <:+: List.replicate k true ++ false :: bs) :
    List.replicate 6 true <:+: bs := by
  induction k with
  | zero =>
    obtain hp | hi := List.infix_cons_iff.mp h
    · simp [List.replicate_succ] at hp
    · exact hi
  | succ k ih =>
    obtain hp | hi := List.infix_cons_iff.mp h
    · have hbit := hp.getElem (i := k + 1) (by simpa using hk)
      rw [List.getElem_replicate] at hbit
      simp at hbit
    · exact ih (by omega) hi

/-- A stuffed line never holds six ones in a row, the run before it included (R128): each fifth one
of a run is followed by a zero. -/
theorem not_six_ones_stuff {k : Nat} (bs : List Bool) (hk : k ≤ 4) :
    ¬List.replicate 6 true <:+: List.replicate k true ++ stuff k bs := by
  induction bs generalizing k with
  | nil =>
    intro h
    have hlen := h.length_le
    simp only [stuff, List.append_nil, List.length_replicate] at hlen
    omega
  | cons b bs ih =>
    have hrun : List.replicate k true ++ [true] = List.replicate (k + 1) true :=
      List.replicate_succ'.symm
    have hrest := ih (Nat.zero_le 4)
    cases b with
    | false => exact fun h => hrest (six_ones_after_zero (by omega) h)
    | true =>
      by_cases hfifth : k + 1 = stuffThreshold
      · rw [stuff, if_pos hfifth, ← List.singleton_append, ← List.append_assoc, hrun]
        exact fun h => hrest (six_ones_after_zero (by omega) h)
      · have hlt : k + 1 ≤ 4 := by simp only [stuffThreshold] at hfifth; omega
        rw [stuff, if_neg hfifth, ← List.singleton_append, ← List.append_assoc, hrun]
        exact ih hlt

/-- A command that sends data appends the symbols of some bytes in data mode; of none where it
faults. -/
theorem symtrace_of_sendsData (hi : sendsData i = true) (h : exec i s = .next t) :
    ∃ vs, t.symtrace = (emitBytes false vs s).symtrace := by
  cases ends_of_exec h with
  | fault c => exact ⟨[], rfl⟩
  | success r hu =>
    cases hu with
    | @emitByte v f =>
      obtain rfl : f = false := by simpa [sendsData] using hi
      exact ⟨_, rfl⟩
    | emitString ha => exact ⟨_, rfl⟩
    | emitCrc => exact ⟨_, rfl⟩
    | _ => exact absurd hi Bool.false_ne_true

/-- Settles O29: decoded, the symbols of a data command are a stuffed line, and those of a flag byte
are its own bits. -/
theorem onlyFlagsHoldSixSymbols : Obligations.OnlyFlagsHoldSixSymbols := by
  refine ⟨fun i s t syms hi hones h hsyms => ?_, fun s t syms h hsyms => ?_⟩
  · obtain ⟨vs, hvs⟩ := symtrace_of_sendsData hi h
    obtain ⟨-, hline⟩ := emitBytes_line (f := false) vs fun _ => hones
    obtain rfl := List.append_cancel_left (hsyms.symm.trans (hvs.trans hline))
    rw [nrziDecode_nrziSymbols]
    exact not_six_ones_stuff _ hones
  · obtain rfl := next_inj h
    obtain ⟨-, hline⟩ := emitBytes_line (f := true) (s := s) [flagByte] nofun
    obtain rfl := List.append_cancel_left (hsyms.symm.trans hline)
    rw [nrziDecode_nrziSymbols]
    rfl

end Sys2Proof.Machine
end

section
/-! SUPPORT. The tones under each strategy: what TM_MARK and TM_SPACE emit (spec/41 R156, R157), and
how long a trace of tones lasts (R161, spec/70 R322). -/

namespace Sys2Proof.Machine

variable {s : State}

/-! ### One tone under either strategy -/

theorem lineAfter_of_direct (h : s.strat = 0#1) : lineAfter s = 0#1 := if_pos h

theorem lineAfter_of_carrier (h : s.strat = 1#1) : lineAfter s = s.txlvl := by
  simp [lineAfter, h]

/-- Direct strategy: a pulse drives the line high, then low (R152, R153). -/
theorem symbolEvents_mark_of_direct (h : s.strat = 0#1) :
    symbolEvents s .mark = [.drive 1#1 .tMark, .drive 0#1 .tMark] := by
  simp [symbolEvents, h]

/-- Fast-carrier strategy: a pulse writes the high, then the low carrier byte (R152, R153). -/
theorem symbolEvents_mark_of_carrier (h : s.strat = 1#1) :
    symbolEvents s .mark = [.regWrite s.cfg.radioLsbAddr s.lsbHi .tMark,
      .regWrite s.cfg.radioLsbAddr s.lsbLo .tMark] := by
  simp [symbolEvents, h]

theorem symbolEvents_space_of_direct (h : s.strat = 0#1) :
    symbolEvents s .space = [.drive 1#1 .tSpace, .drive 0#1 .tSpace,
      .drive 1#1 .tSpace, .drive 0#1 .tSpace] := by
  simp [symbolEvents, h]

theorem symbolEvents_space_of_carrier (h : s.strat = 1#1) :
    symbolEvents s .space = [.regWrite s.cfg.radioLsbAddr s.lsbHi .tSpace,
      .regWrite s.cfg.radioLsbAddr s.lsbLo .tSpace,
      .regWrite s.cfg.radioLsbAddr s.lsbHi .tSpace,
      .regWrite s.cfg.radioLsbAddr s.lsbLo .tSpace] := by
  simp [symbolEvents, h]

theorem exec_tmMark (s : State) :
    exec .tmMark s = .next (({ s with txlvl := lineAfter s,
                                      txtrace := s.txtrace ++ symbolEvents s .mark,
                                      symtrace := s.symtrace ++ [.mark] } : State).answered
      0x0000000000#40) :=
  congrArg (respond 0#32) (markTone_eq s)

theorem exec_tmSpace (s : State) :
    exec .tmSpace s = .next (({ s with txlvl := lineAfter s,
                                       txtrace := s.txtrace ++ symbolEvents s .space,
                                       symtrace := s.symtrace ++ [.space] } : State).answered
      0x0000000000#40) :=
  congrArg (respond 0#32) (spaceTone_eq s)

/-- Settles O30: a mark's line and events under each strategy, put into the command's next state. -/
theorem tmMarkEmitsOnePulse : Obligations.TmMarkEmitsOnePulse := by
  refine fun s => ⟨fun h => ?_, fun h => ?_⟩
  · rw [exec_tmMark, lineAfter_of_direct h, symbolEvents_mark_of_direct h]
    rfl
  · rw [exec_tmMark, lineAfter_of_carrier h, symbolEvents_mark_of_carrier h]
    rfl

/-- Settles O31: a space's line and events under each strategy, put into the command's next state. -/
theorem tmSpaceEmitsTwoPulses : Obligations.TmSpaceEmitsTwoPulses := by
  refine fun s => ⟨fun h => ?_, fun h => ?_⟩
  · rw [exec_tmSpace, lineAfter_of_direct h, symbolEvents_space_of_direct h]
    rfl
  · rw [exec_tmSpace, lineAfter_of_carrier h, symbolEvents_space_of_carrier h]
    rfl

/-! ### The length of a trace -/

/-- The nominal length of a symbol: two phases of `T_MARK`, or four of `T_SPACE` (R153, R154). -/
def symbolLength (cfg : Config) : Symbol → Nat
  | .mark => 2 * cfg.tMark
  | .space => 4 * cfg.tSpace

theorem traceLength_cons (cfg : Config) (e : PhaseEvent) (es : List PhaseEvent) :
    traceLength cfg (e :: es) = e.delay.length cfg + traceLength cfg es := rfl

theorem traceLength_mark (cfg : Config) {e1 e2 : PhaseEvent} (es : List PhaseEvent)
    (h1 : e1.delay = .tMark) (h2 : e2.delay = .tMark) :
    traceLength cfg (e1 :: e2 :: es) = symbolLength cfg .mark + traceLength cfg es := by
  simp only [traceLength_cons, h1, h2, Delay.length, symbolLength]
  omega

theorem traceLength_space (cfg : Config) {e1 e2 e3 e4 : PhaseEvent} (es : List PhaseEvent)
    (h1 : e1.delay = .tSpace) (h2 : e2.delay = .tSpace) (h3 : e3.delay = .tSpace)
    (h4 : e4.delay = .tSpace) :
    traceLength cfg (e1 :: e2 :: e3 :: e4 :: es) =
      symbolLength cfg .space + traceLength cfg es := by
  simp only [traceLength_cons, h1, h2, h3, h4, Delay.length, symbolLength]
  omega

/-- One symbol read in front of a trace adds its length to that of the others. -/
theorem sum_symbolLength_of_map (cfg : Config) {o : Option (List Symbol)} {x : Symbol} {n : Nat}
    {xs : List Symbol} (ih : ∀ {ys}, o = some ys → n = (ys.map (symbolLength cfg)).sum)
    (h : o.map (x :: ·) = some xs) :
    symbolLength cfg x + n = (xs.map (symbolLength cfg)).sum := by
  obtain ⟨ys, hys, rfl⟩ := Option.map_eq_some_iff.mp h
  rw [ih hys, List.map_cons, List.sum_cons]

/-- A trace lasts as long as the symbols it is made of (R161), by recursion along its reading as
symbols. -/
theorem traceLength_of_symbolsOf (cfg : Config) {es : List PhaseEvent} {xs : List Symbol}
    (h : symbolsOf es = some xs) : traceLength cfg es = (xs.map (symbolLength cfg)).sum := by
  induction es using symbolsOf.induct generalizing xs with
  | case1 =>
    obtain rfl : [] = xs := by simpa [symbolsOf] using h
    rfl
  | case2 l1 l2 rest hl ih =>
    rw [symbolsOf, if_pos hl] at h
    exact (traceLength_mark cfg rest rfl rfl).trans (sum_symbolLength_of_map cfg ih h)
  | case3 l1 l2 rest hl => simp [symbolsOf, hl] at h
  | case4 _ _ _ _ rest ih =>
    rw [symbolsOf] at h
    exact (traceLength_mark cfg rest rfl rfl).trans (sum_symbolLength_of_map cfg ih h)
  | case5 l1 l2 l3 l4 rest hl ih =>
    rw [symbolsOf, if_pos hl] at h
    exact (traceLength_space cfg rest rfl rfl rfl rfl).trans (sum_symbolLength_of_map cfg ih h)
  | case6 l1 l2 l3 l4 rest hl => simp [symbolsOf, hl] at h
  | case7 _ _ _ _ _ _ _ _ rest ih =>
    rw [symbolsOf] at h
    exact (traceLength_space cfg rest rfl rfl rfl rfl).trans (sum_symbolLength_of_map cfg ih h)
  | case8 es hnil hdrive2 hwrite2 hdrive4 hwrite4 =>
    rw [symbolsOf] at h
    · simp at h
    all_goals assumption

/-- With `T_SPACE` half of `T_MARK` both symbols last the same (R161). -/
theorem symbolLength_eq {cfg : Config} (h : cfg.tMark = 2 * cfg.tSpace) (x : Symbol) :
    symbolLength cfg x = 2 * cfg.tMark := by
  cases x with
  | mark => rfl
  | space => rw [symbolLength]; omega

/-- Settles O33: by the invariant the trace is made of the symbols sent, each of the same length. -/
theorem everySymbolLastsTwoMarkDelays : Obligations.EverySymbolLastsTwoMarkDelays := by
  intro s hinv hhalf
  calc traceLength s.cfg s.txtrace = (s.symtrace.map (symbolLength s.cfg)).sum :=
        traceLength_of_symbolsOf s.cfg hinv.symbols
    _ = (s.symtrace.map fun _ => 2 * s.cfg.tMark).sum :=
        congrArg List.sum (List.map_congr_left fun x _ => symbolLength_eq hhalf x)
    _ = s.symtrace.length * (2 * s.cfg.tMark) := by
        rw [List.map_const', List.sum_replicate, smul_eq_mul]

end Sys2Proof.Machine
end

section
/-! SUPPORT. The modulation path influences nothing else (spec/41 R151, R152): every operation takes
states that differ in it only to states that differ in it only. -/

namespace Sys2Proof.Machine

variable {s s' u u' : State}

/-! ### States that differ in the modulation path -/

/-- What the modulation path holds: the strategy, the carrier bytes, the line and `TXTRACE`. -/
structure Modulation where
  strat   : BitVec 1
  lsbHi   : Byte
  lsbLo   : Byte
  txlvl   : BitVec 1
  txtrace : List PhaseEvent

/-- The state with another modulation path. -/
def State.modulated (s : State) (m : Modulation) : State :=
  { s with strat := m.strat, lsbHi := m.lsbHi, lsbLo := m.lsbLo, txlvl := m.txlvl,
           txtrace := m.txtrace }

theorem sameButModulation_iff : sameButModulation s s' ↔ ∃ m, s' = s.modulated m := by
  constructor
  · exact fun h => ⟨⟨s'.strat, s'.lsbHi, s'.lsbLo, s'.txlvl, s'.txtrace⟩, h⟩
  · rintro ⟨m, rfl⟩
    rfl

/-! ### The operations -/

theorem sameButModulation_answered (r : Word40) (h : sameButModulation s s') :
    sameButModulation (s.answered r) (s'.answered r) := by
  obtain ⟨m, rfl⟩ := sameButModulation_iff.mp h
  rfl

theorem sameButModulation_faulted (c : FaultCode) (h : sameButModulation s s') :
    sameButModulation (s.faulted c) (s'.faulted c) := by
  obtain ⟨m, rfl⟩ := sameButModulation_iff.mp h
  rfl

/-- Each strategy gives the same symbol (R151). -/
theorem sameButModulation_emitSymbol (p : BitVec 1) (h : sameButModulation s s') :
    sameButModulation (emitSymbol p s) (emitSymbol p s') := by
  obtain ⟨m, rfl⟩ := sameButModulation_iff.mp h
  rw [emitSymbol_eq, emitSymbol_eq]
  rfl

/-- Each strategy gives the same bits: the fifth one of a run is told by `ONES`, which both states
share (R122). -/
theorem sameButModulation_fbeBit (f b : Bool) (h : sameButModulation s s') :
    sameButModulation (fbeBit f b s) (fbeBit f b s') := by
  obtain ⟨m, rfl⟩ := sameButModulation_iff.mp h
  cases b with
  | false =>
    simp only [fbeBit, emitSymbol_eq]
    rfl
  | true =>
    cases f with
    | true =>
      simp only [fbeBit, emitSymbol_eq]
      rfl
    | false =>
      by_cases hfifth : s.ones = 4#3 <;>
        simp only [fbeBit, emitSymbol_eq, State.modulated, fifth_iff, hfifth] <;> rfl

theorem sameButModulation_emitBits (f : Bool) (bs : List Bool) (h : sameButModulation s s') :
    sameButModulation (emitBits f bs s) (emitBits f bs s') := by
  induction bs generalizing s s' with
  | nil => exact h
  | cons b bs ih => exact ih (sameButModulation_fbeBit f b h)

theorem sameButModulation_emitBytes (f : Bool) (vs : List Byte) (h : sameButModulation s s') :
    sameButModulation (emitBytes f vs s) (emitBytes f vs s') :=
  sameButModulation_emitBits f _ h

theorem symbolsSince_congr (h : sameButModulation s s') (hu : sameButModulation u u') :
    symbolsSince s' u' = symbolsSince s u := by
  obtain ⟨m, rfl⟩ := sameButModulation_iff.mp h
  obtain ⟨n, rfl⟩ := sameButModulation_iff.mp hu
  rfl

@[simp] theorem push_modulated (v : Byte) (s : State) (m : Modulation) :
    push v (s.modulated m) = (push v s).modulated m := by
  by_cases hc : s.wc.toNat < s.cfg.cap
  · simp [push, State.modulated, hc]
  · simp [push, State.modulated, hc]

/-- The registers 0x03 to 0x06 are the modulation path's (R28). -/
theorem readReg_modulated {n : Byte} (h : n.toNat < 3 ∨ 6 < n.toNat) (s : State)
    (m : Modulation) : readReg n (s.modulated m) = readReg n s := by
  unfold readReg
  split
  case h_4 | h_5 | h_6 | h_7 => omega
  all_goals rfl

/-- A register write is refused in both states or in neither. -/
theorem writeReg_modulated (n v : Byte) (s : State) (m : Modulation) :
    Option.Rel sameButModulation (writeReg n v s) (writeReg n v (s.modulated m)) := by
  unfold writeReg
  split
  · split
    · exact .some rfl
    · exact .none
  · exact .some rfl
  · exact .some rfl
  · exact .none

/-! ### The commands -/

/-- Both results are next states, and these differ in the modulation path only. -/
def EndAlike (x x' : Result) : Prop :=
  ∃ t t', x = .next t ∧ x' = .next t' ∧ sameButModulation t t'

theorem endAlike_respond {r r' : Word} (hr : r' = r) (h : sameButModulation u u') :
    EndAlike (respond r u) (respond r' u') :=
  hr ▸ ⟨_, _, rfl, rfl, sameButModulation_answered _ h⟩

theorem endAlike_raise (c : FaultCode) (h : sameButModulation s s') :
    EndAlike (raise c s) (raise c s') :=
  ⟨_, _, rfl, rfl, sameButModulation_faulted c h⟩

/-- A check that reads nothing of the modulation path is the same proposition in both states. -/
theorem endAlike_ite {P : Prop} [Decidable P] {x x' y y' : Result}
    (hx : EndAlike x x') (hy : EndAlike y y') :
    EndAlike (if P then x else y) (if P then x' else y') := by
  split
  · exact hx
  · exact hy

theorem endAlike_emitAndCount (f : Bool) (vs : List Byte) (h : sameButModulation s s') :
    EndAlike (emitAndCount f vs s) (emitAndCount f vs s') :=
  have hu := sameButModulation_emitBytes f vs h
  endAlike_respond (symbolsSince_congr h hu) hu

theorem endAlike_pushPair (p q : Byte) {f : State → Word}
    (hf : ∀ t m, f (State.modulated t m) = f t) (s : State) (m : Modulation) :
    EndAlike (pushPair p q f s) (pushPair p q f (s.modulated m)) := by
  have hdup (d : BitVec 1) (t : State) :
      ({ t.modulated m with dup := d } : State) = ({ t with dup := d } : State).modulated m := rfl
  refine endAlike_ite (endAlike_raise _ rfl) (endAlike_ite ?_
    (endAlike_ite (endAlike_raise _ rfl) ?_))
  · exact endAlike_respond (hf { s with dup := 1#1 } m) rfl
  · simp only [push_modulated, hdup]
    exact endAlike_respond (hf _ m) rfl

theorem endAlike_execRdreg {n : Byte} (hn : n.toNat < 3 ∨ 6 < n.toNat) (s : State)
    (m : Modulation) : EndAlike (execRdreg n s) (execRdreg n (s.modulated m)) := by
  unfold execRdreg
  rw [readReg_modulated hn]
  cases readReg n s with
  | none => exact endAlike_raise _ rfl
  | some r => exact endAlike_respond rfl rfl

theorem endAlike_execWrreg (n v : Byte) (s : State) (m : Modulation) :
    EndAlike (execWrreg n v s) (execWrreg n v (s.modulated m)) := by
  have hw := writeReg_modulated n v s m
  unfold execWrreg
  generalize writeReg n v s = a, writeReg n v (s.modulated m) = b at hw ⊢
  cases hw with
  | none => exact endAlike_raise _ rfl
  | some ht => exact endAlike_respond rfl ht

/-- Settles O32: command by command, from the operations each is made of. -/
theorem strategyChangesOnlyTheModulation : Obligations.StrategyChangesOnlyTheModulation := by
  intro i s s' h hi
  obtain ⟨m, rfl⟩ := sameButModulation_iff.mp h
  change EndAlike (exec i s) (exec i (s.modulated m))
  cases i with
  | nop => exact endAlike_respond rfl rfl
  | crcReset => exact endAlike_respond rfl rfl
  | emitByte v f => exact endAlike_emitAndCount f _ h
  | emitFlag c => exact endAlike_emitAndCount true _ h
  | emitString a l =>
    exact endAlike_ite (endAlike_emitAndCount false _ h) (endAlike_raise _ h)
  | emitCrc => exact endAlike_respond rfl (sameButModulation_emitBytes false _ h)
  -- `Mark()` and `Space()` are `Symbol(1)` and `Symbol(0)` (R155).
  | tmMark => exact endAlike_respond rfl (sameButModulation_emitSymbol 1#1 h)
  | tmSpace => exact endAlike_respond rfl (sameButModulation_emitSymbol 0#1 h)
  | gsClassify lat lon => exact endAlike_respond rfl rfl
  | tcGet => exact endAlike_respond rfl rfl
  | tcPush v =>
    change EndAlike (execTcPush v s) (execTcPush v (s.modulated m))
    simp only [execTcPush, push_modulated]
    exact endAlike_ite (endAlike_raise _ h) (endAlike_respond rfl rfl)
  | tcStore => exact endAlike_respond rfl rfl
  | tcPushpair p q => exact endAlike_pushPair p q (fun _ _ => rfl) s m
  | tcRecord lat lon =>
    exact endAlike_ite (endAlike_pushPair _ _ (fun _ _ => rfl) s m) (endAlike_raise _ h)
  | tcRead c => exact endAlike_ite (endAlike_respond rfl h) (endAlike_raise _ h)
  | tcExport a =>
    exact endAlike_ite (endAlike_raise _ h) (endAlike_ite (endAlike_raise _ h)
      (endAlike_ite (endAlike_respond rfl rfl) (endAlike_raise _ h)))
  | rdreg n => exact endAlike_execRdreg (hi n rfl) s m
  | wrreg n v => exact endAlike_execWrreg n v s m
  | wrbuf a v => exact endAlike_ite (endAlike_respond rfl rfl) (endAlike_raise _ h)
  | rdbuf a => exact endAlike_ite (endAlike_respond rfl h) (endAlike_raise _ h)

end Sys2Proof.Machine
end

section
/-! SUPPORT. The address fields of a frame (spec/43 R181 to R183): the shape of one field, and which of
its bytes carry the end-of-header marker. -/

namespace Sys2Proof.Machine

/-! ### The two parts of an address field -/

/-- The callsign part of an address field (R181). -/
def callBytes (call : List Byte) : List Byte := (padCall call).map (fun c : Byte => c <<< (1 : Nat))

/-- The SSID byte of an address field, the marker in its bit 0 (R182). -/
def ssidByte (ssid : Nat) (last : Bool) : Byte :=
  (BitVec.ofNat 8 (0x30 + ssid) <<< (1 : Nat)) ||| (BitVec.ofBool last).setWidth 8

theorem addrField_eq (call : List Byte) (ssid : Nat) (last : Bool) :
    addrField call ssid last = callBytes call ++ [ssidByte ssid last] := rfl

/-- Padding is a shifted space (R181). -/
theorem callBytes_eq (call : List Byte) :
    callBytes call = call.map (fun c : Byte => c <<< (1 : Nat)) ++
      List.replicate (6 - call.length) 0x40#8 := by
  simp [callBytes, padCall]

theorem length_callBytes {call : List Byte} (h : call.length ≤ 6) : (callBytes call).length = 6 := by
  simp [callBytes_eq, h]

theorem callBytes_getD_of_lt {call : List Byte} {i : Nat} (h : i < call.length) :
    (callBytes call).getD i 0#8 = call.getD i 0#8 <<< (1 : Nat) := by
  rw [callBytes_eq, List.getD_append _ _ _ _ (by simpa using h)]
  exact List.getD_map call 0#8 (fun c : Byte => c <<< (1 : Nat))

theorem callBytes_getD_of_le {call : List Byte} {i : Nat} (h : call.length ≤ i) (hi : i < 6) :
    (callBytes call).getD i 0#8 = 0x40#8 := by
  rw [callBytes_eq, List.getD_append_right _ _ _ _ (by simpa using h), List.length_map]
  exact List.getD_replicate _ (by omega)

/-- A shifted byte is even, so the marker is added without a carry. -/
theorem toNat_ssidByte (ssid : Nat) (last : Bool) :
    (ssidByte ssid last).toNat = (0x30 + ssid) * 2 % 256 + (if last then 1 else 0) := by
  have hor := Nat.two_pow_add_eq_or_of_lt (i := 1) (b := last.toNat)
    (by cases last <;> decide) ((0x30 + ssid) % 128)
  have heven : (0x30 + ssid) * 2 % 256 = 2 ^ 1 * ((0x30 + ssid) % 128) := by omega
  have hshift : (BitVec.ofNat 8 (0x30 + ssid) <<< (1 : Nat)).toNat = (0x30 + ssid) * 2 % 256 := by
    simp [Nat.shiftLeft_eq]
  have hlast : ((BitVec.ofBool last).setWidth 8).toNat = last.toNat := by cases last <;> rfl
  rw [ssidByte, BitVec.toNat_or, hshift, hlast, heven, ← hor, Bool.toNat, Bool.cond_eq_ite]

/-- Settles O54: the first six bytes are the callsign part, and the seventh is the SSID byte. -/
theorem addressFieldLayout : Obligations.AddressFieldLayout := by
  intro call ssid last hcall _
  have hlen := length_callBytes hcall
  have hcallPart {i : Nat} (hi : i < 6) :
      (addrField call ssid last).getD i 0#8 = (callBytes call).getD i 0#8 :=
    List.getD_append _ _ _ _ (hlen ▸ hi)
  refine ⟨?_, ?_, ?_, ?_⟩
  · simp [addrField_eq, hlen]
  · intro i hi
    rw [hcallPart (hi.trans_le hcall), callBytes_getD_of_lt hi, BitVec.toNat_shiftLeft,
      Nat.shiftLeft_eq]
  · intro i hi hi6
    rw [hcallPart hi6, callBytes_getD_of_le hi hi6]
  · rw [addrField_eq, List.getD_append_right _ _ _ _ hlen.le, hlen]
    exact toNat_ssidByte ssid last

/-! ### The end-of-header marker -/

theorem getLsbD_zero_of_mem_callBytes {call : List Byte} {b : Byte} (h : b ∈ callBytes call) :
    b.getLsbD 0 = false := by
  obtain ⟨c, -, rfl⟩ := List.mem_map.mp h
  simp

theorem getLsbD_zero_ssidByte (ssid : Nat) (last : Bool) :
    (ssidByte ssid last).getLsbD 0 = last := by
  cases last <;> simp [ssidByte]

/-- Only the SSID byte can carry a marker, and it does if the field is the last. -/
theorem countP_addrField (call : List Byte) (ssid : Nat) (last : Bool) :
    (addrField call ssid last).countP (fun b => b.getLsbD 0) = last.toNat := by
  have hcall : (callBytes call).countP (fun b => b.getLsbD 0) = 0 :=
    List.countP_eq_zero.mpr fun b hb => by
      rw [getLsbD_zero_of_mem_callBytes hb]
      decide
  rw [addrField_eq, List.countP_append, hcall, List.countP_singleton, getLsbD_zero_ssidByte]
  cases last <;> rfl

theorem getLastD_append_addrField (bs : List Byte) (call : List Byte) (ssid : Nat)
    (last : Bool) : (bs ++ addrField call ssid last).getLastD 0#8 = ssidByte ssid last := by
  simp [addrField_eq, ← List.append_assoc]

/-- Bytes without a marker, followed by a field that is the last, have one marker: the last byte's. -/
theorem one_marker_append_addrField {bs : List Byte} (h : bs.countP (fun b => b.getLsbD 0) = 0)
    (call : List Byte) (ssid : Nat) :
    (bs ++ addrField call ssid true).countP (fun b => b.getLsbD 0) = 1 ∧
      ((bs ++ addrField call ssid true).getLastD 0#8).getLsbD 0 = true := by
  constructor
  · rw [List.countP_append, h, countP_addrField, Bool.toNat_true]
  · rw [getLastD_append_addrField, getLsbD_zero_ssidByte]

/-- Settles O55: the fields before the one sent last have no marker, with a digipeater or without. -/
theorem oneEndOfHeaderMarker : Obligations.OneEndOfHeaderMarker := by
  intro f
  have hfirst (a : Address) :
      (addrField a.call a.ssid false).countP (fun b => b.getLsbD 0) = 0 := countP_addrField _ _ _
  unfold FrameParts.addresses
  cases f.digi with
  | none => exact one_marker_append_addrField (hfirst f.dest) _ _
  | some d =>
    refine one_marker_append_addrField ?_ _ _
    rw [List.countP_append, hfirst, hfirst]

end Sys2Proof.Machine
end

section
/-! SUPPORT. The Geofence Selector: the crossing-number test as the parity of a list of edge tests
(spec/44 R202), what keeps that parity (R204), and the frequency a point is given (R203). -/

namespace Sys2Proof.Machine

/-! ### One edge -/

/-- The latitude comparison of R202 without its division: multiplied by the edge's longitude
difference, the two sides keep their order or swap with its sign. -/
theorem lt_add_mul_div_iff {y yi d t w : ℚ} (hw : w ≠ 0) :
    y < yi + d * t / w ↔ (0 < w ∧ (y - yi) * w < d * t) ∨ (w < 0 ∧ d * t < (y - yi) * w) := by
  rw [← sub_lt_iff_lt_add']
  rcases hw.lt_or_gt with hneg | hpos
  · simp [lt_div_iff_of_neg hneg, hneg, hneg.not_gt]
  · simp [lt_div_iff₀ hpos, hpos, hpos.not_gt]

/-- An edge is counted when the point is in its span and strictly below it, the comparison still
cross-multiplied (R202). -/
theorem edgeCounted_iff (lat lon : Int) (vj vi : Vertex) :
    edgeCounted lat lon vj vi = true ↔
      ¬(lon < vi.lon ↔ lon < vj.lon) ∧
      ((0 < vj.lon - vi.lon ∧
          (lat - vi.lat) * (vj.lon - vi.lon) < (vj.lat - vi.lat) * (lon - vi.lon)) ∨
        (vj.lon - vi.lon < 0 ∧
          (vj.lat - vi.lat) * (lon - vi.lon) < (lat - vi.lat) * (vj.lon - vi.lon))) := by
  simp [edgeCounted]

/-- An edge whose ends are one vertex has an empty span. -/
@[simp] theorem edgeCounted_self (lat lon : Int) (v : Vertex) : edgeCounted lat lon v v = false := by
  simp [edgeCounted]

/-- An edge is counted or not whichever way it runs: seen from its other end, the two sides of the
comparison have the opposite difference. -/
theorem edgeCounted_comm (lat lon : Int) (vj vi : Vertex) :
    edgeCounted lat lon vj vi = edgeCounted lat lon vi vj := by
  have hdiff : (lat - vj.lat) * (vi.lon - vj.lon) - (vi.lat - vj.lat) * (lon - vj.lon) =
      (vj.lat - vi.lat) * (lon - vi.lon) - (lat - vi.lat) * (vj.lon - vi.lon) := by ring
  rw [Bool.eq_iff_iff, edgeCounted_iff, edgeCounted_iff]
  omega

/-! ### The edges of a polygon -/

/-- Whether each edge of a closed polygon is counted, in the order of R202: the edge into each
vertex from the one before it, and into the first from the last. -/
def edgeTests (lat lon : Int) (vs : List Vertex) : List Bool :=
  List.zipWith (edgeCounted lat lon) (vs.rotate (vs.length - 1)) vs

theorem decide_succ_mod_two (n : Nat) : decide ((n + 1) % 2 = 1) = !decide (n % 2 = 1) := by
  rw [← decide_not, decide_eq_decide]
  omega

/-- The loop of R202 toggles its parity once for each counted edge. -/
theorem walkEdges_eq (lat lon : Int) (vj : Vertex) (c : Bool) (vs : List Vertex) :
    walkEdges lat lon vj c vs =
      (c ^^ decide ((List.zipWith (edgeCounted lat lon) (vj :: vs) vs).count true % 2 = 1)) := by
  induction vs generalizing vj c with
  | nil => simp [walkEdges]
  | cons vi rest ih =>
    rw [walkEdges, ih, List.zipWith_cons_cons]
    cases edgeCounted lat lon vj vi
    · simp
    · simp [decide_succ_mod_two]

/-- A point is inside when the number of counted edges is odd (R202). -/
theorem inPoly_eq (vs : List Vertex) (lat lon : Int) :
    inPoly vs lat lon = decide ((edgeTests lat lon vs).count true % 2 = 1) := by
  rcases vs.eq_nil_or_concat' with rfl | ⟨init, last, rfl⟩
  · rfl
  · have hrot : (init ++ [last]).rotate ((init ++ [last]).length - 1) = last :: init := by
      simp
    have hzip : List.zipWith (edgeCounted lat lon) (last :: (init ++ [last])) (init ++ [last]) =
        List.zipWith (edgeCounted lat lon) (last :: init) (init ++ [last]) := by
      simpa using List.zipWith_append (f := edgeCounted lat lon) (l₁ := last :: init) (l₁' := [last])
        (l₂ := init ++ [last]) (l₂' := []) (by simp)
    rw [edgeTests, hrot, ← hzip]
    simp [inPoly, walkEdges_eq]

/-- Listing the edges from another vertex lists the same edges. -/
theorem edgeTests_rotate (lat lon : Int) (vs : List Vertex) (k : Nat) :
    edgeTests lat lon (vs.rotate k) = (edgeTests lat lon vs).rotate k := by
  rw [edgeTests, edgeTests, List.zipWith_rotate_distrib _ _ _ _ (by simp), List.rotate_rotate,
    List.rotate_rotate, List.length_rotate, Nat.add_comm]

/-- Listed backwards, each edge runs the other way, and the edges start from another one. -/
theorem edgeTests_reverse (lat lon : Int) (vs : List Vertex) :
    edgeTests lat lon vs.reverse = ((edgeTests lat lon vs).rotate 1).reverse := by
  rcases vs.length.eq_zero_or_pos with h | h
  · obtain rfl := List.eq_nil_of_length_eq_zero h
    rfl
  · have hback : vs.length - (vs.length - 1) % vs.length = 1 := by
      rw [Nat.mod_eq_of_lt (by omega)]
      omega
    have hround : (vs.rotate 1).rotate (vs.length - 1) = vs := by
      rw [List.rotate_rotate, Nat.add_sub_cancel' h, List.rotate_length]
    rw [← edgeTests_rotate, edgeTests, edgeTests, List.rotate_reverse, List.length_reverse, hback,
      List.length_rotate, hround, ← List.reverse_zipWith (by simp),
      List.zipWith_comm_of_comm (edgeCounted_comm lat lon)]

/-- The edge tests by index, as R202 counts its loop. -/
theorem edgeTests_eq_map_range (lat lon : Int) (vs : List Vertex) :
    edgeTests lat lon vs = (List.range vs.length).map (fun i =>
      edgeCounted lat lon (vs.getD ((i + vs.length - 1) % vs.length) ⟨0, 0⟩)
        (vs.getD i ⟨0, 0⟩)) := by
  refine List.ext_getElem (by simp [edgeTests]) fun i _ hi => ?_
  have hi : i < vs.length := by simpa using hi
  have hprev : (i + vs.length - 1) % vs.length < vs.length := Nat.mod_lt _ (by omega)
  rw [List.getElem_map, List.getElem_range, List.getD_eq_getElem _ _ hi,
    List.getD_eq_getElem _ _ hprev]
  simp [edgeTests, List.getElem_rotate, Nat.add_sub_assoc (Nat.one_le_of_lt hi)]

/-! ### The crossing-number test -/

/-- Settles O35: the comparison of one edge divided by its longitude difference, and the parity of
the edge tests counted by index. -/
theorem inPolyIsTheOddCrossingTest : Obligations.InPolyIsTheOddCrossingTest := by
  constructor
  · intro lat lon vj vi
    rw [edgeCounted_iff]
    refine and_congr_right fun hspan => ?_
    have hlon : (vj.lon : ℚ) - vi.lon ≠ 0 := by
      rw [sub_ne_zero]
      intro h
      exact hspan (by rw [Int.cast_injective h])
    rw [lt_add_mul_div_iff hlon]
    exact_mod_cast Iff.rfl
  · intro vs lat lon
    rw [inPoly_eq, edgeTests_eq_map_range, List.count, List.countP_map]
    simp [Function.comp_def]

/-- Settles O36: the only edge of one vertex has an empty span, and the two edges of two vertices
are one edge counted twice. -/
theorem fewerThanThreeVerticesNeverMatch : Obligations.FewerThanThreeVerticesNeverMatch := by
  intro vs lat lon h
  match vs with
  | [] => rfl
  | [v] => simp [inPoly_eq, edgeTests]
  | [v, w] =>
    have hsame : edgeTests lat lon [v, w] = List.replicate 2 (edgeCounted lat lon v w) := by
      simp [edgeTests, edgeCounted_comm lat lon w v]
    rw [inPoly_eq, hsame]
    cases edgeCounted lat lon v w <;> rfl
  | _ :: _ :: _ :: _ => simp +arith at h

/-- Settles O37: both ways of listing the vertices permute the edge tests. -/
theorem vertexOrderAndStartDoNotMatter : Obligations.VertexOrderAndStartDoNotMatter := by
  intro vs k lat lon
  constructor
  · rw [inPoly_eq, inPoly_eq, edgeTests_reverse, List.count_reverse,
      (List.rotate_perm _ 1).count_eq]
  · rw [inPoly_eq, inPoly_eq, edgeTests_rotate, (List.rotate_perm _ k).count_eq]

/-! ### The frequency of a point -/

theorem classify_noFix (cfg : Config) : classify cfg 0 0 = cfg.defaultFreq := if_pos ⟨rfl, rfl⟩

/-- A fix is given the frequency of the region found first. -/
theorem classify_of_find?_eq_some {cfg : Config} {lat lon : Int} {r : Region}
    (hfix : ¬(lat = 0 ∧ lon = 0))
    (h : cfg.regions.find? (fun r => inPoly r.vertices lat lon) = some r) :
    classify cfg lat lon = r.freq := by
  simp [classify, hfix, h]

/-- A fix in no region is given the default. -/
theorem classify_of_find?_eq_none {cfg : Config} {lat lon : Int}
    (hfix : ¬(lat = 0 ∧ lon = 0))
    (h : cfg.regions.find? (fun r => inPoly r.vertices lat lon) = none) :
    classify cfg lat lon = cfg.defaultFreq := by
  simp [classify, hfix, h]

/-- GS_CLASSIFY writes the point's frequency to `FREQ` and responds with it. -/
theorem exec_gsClassify {lat lon : Int} {s : State} {f : Word} (h : classify s.cfg lat lon = f) :
    exec (.gsClassify lat lon) s =
      .next { s with freq := f, responses := s.responses ++ [responseWord 0#8 f] } := by
  subst h
  rfl

/-- Settles O34: the point's frequency in each of the three cases, put into the next state. -/
theorem firstMatchingRegionWins : Obligations.FirstMatchingRegionWins := by
  refine ⟨fun s => ?_, fun lat lon s before after r hfix hregions hbefore hr => ?_,
    fun lat lon s hfix hnone => ?_⟩
  · exact exec_gsClassify (classify_noFix s.cfg)
  · refine exec_gsClassify (classify_of_find?_eq_some hfix ?_)
    rw [hregions, List.find?_eq_some_iff_append]
    exact ⟨hr, before, after, rfl, fun b hb => by simp [hbefore b hb]⟩
  · refine exec_gsClassify (classify_of_find?_eq_none hfix ?_)
    rw [List.find?_eq_none]
    exact fun b hb => by simp [hnone b hb]

end Sys2Proof.Machine
end

section
/-! SUPPORT. The Position Trail Cache (spec/45_trail_cache.md): the commands on the working and the
persistent copy, the push, the deduplicating pair push and its quantiser, and the export. -/

namespace Sys2Proof.Machine

/-! ### Copying and reading -/

/-- An array copied whole over another replaces its bytes below the size and no others. -/
theorem read_writeRun_readRun (m src : Memory) (n i : Nat) :
    (m.writeRun 0 (src.readRun 0 n)).read i = if i < n then src.read i else m.read i := by
  rw [Memory.read_writeRun, Memory.length_readRun]
  by_cases hi : i < n
  · rw [if_pos (by omega), if_pos hi, Memory.getD_readRun _ _ _ _ _ (by omega), Nat.sub_zero,
      Nat.zero_add]
  · rw [if_neg (by omega), if_neg hi]

/-- Settles O38: TC_GET copies `NVB` over `W` and `NVC` into `WC`. -/
theorem tcGetLoadsTheWorkingCopy : Obligations.TcGetLoadsTheWorkingCopy := by
  refine fun s => ⟨_, rfl, fun i hi => ?_, fun i hi => ?_, rfl, rfl, rfl⟩
  · exact (read_writeRun_readRun _ _ _ _).trans (if_pos hi)
  · exact (read_writeRun_readRun _ _ _ _).trans (if_neg (Nat.not_lt.mpr hi))

/-- Settles O39: TC_STORE copies `W` over `NVB` and `WC` into `NVC`. -/
theorem tcStoreSavesTheWorkingCopy : Obligations.TcStoreSavesTheWorkingCopy := by
  refine fun s => ⟨_, rfl, fun i hi => ?_, fun i hi => ?_, rfl, rfl, rfl⟩
  · exact (read_writeRun_readRun _ _ _ _).trans (if_pos hi)
  · exact (read_writeRun_readRun _ _ _ _).trans (if_neg (Nat.not_lt.mpr hi))

/-- Settles O47: the index check decides between the raw byte and the fault. -/
theorem tcReadReadsTheBuffer : Obligations.TcReadReadsTheBuffer :=
  fun _ _ => ⟨fun hc => if_pos hc, fun hc => if_neg (Nat.not_lt.mpr hc)⟩

/-! ### The push -/

theorem countResult_eq_ofNat {s : State} {n : Nat} (h : s.wc.toNat = n) :
    countResult s = BitVec.ofNat 32 n := by
  rw [countResult, ← h, BitVec.ofNat_toNat]

/-- Settles O41: the overflow check comes first; a push that passes it appends or shifts as the count
is below capacity or not. -/
theorem tcPushAppendsOrEvicts : Obligations.TcPushAppendsOrEvicts := by
  refine fun v s => ⟨fun hmax => if_pos hmax, fun hmax => ?_⟩
  have hlt : s.wc.toNat < 0xFFFF := by
    have : s.wc.toNat ≠ 0xFFFF := fun e => hmax (BitVec.eq_of_toNat_eq e)
    omega
  have hwc : (push v s).wc.toNat = s.wc.toNat + 1 := by rw [push_wc, toNat_wc_add_one hlt]
  refine ⟨_, exec_tcPush v hlt, hwc, push_read_append v s, push_read_shift v s, ?_, ?_⟩
  · simp [countResult_eq_ofNat hwc]
  · rw [State.answered, push_frame]

/-! ### The pair push -/

/-- The state after a new pair is recorded, before the response (R226). -/
def pairPushed (p q : Byte) (s : State) : State := { push q (push p s) with dup := 0#1 }

theorem cap_pos_of_wf {c : Config} (h : c.wf = true) : 0 < c.cap :=
  Nat.lt_of_lt_of_le Nat.two_pos (two_le_cap_of_wf h)

theorem pairPushed_frame (p q : Byte) (s : State) :
    pairPushed p q s =
      { s with w := (pairPushed p q s).w, wc := (pairPushed p q s).wc, dup := 0#1 } := by
  rw [pairPushed, push_frame, push_frame p]

theorem pairPushed_wc_toNat {p q : Byte} {s : State} (hc : s.wc.toNat ≤ 0xFFFD) :
    (pairPushed p q s).wc.toNat = s.wc.toNat + 2 := toNat_wc_push_push hc

/-- A new pair is appended to the trail, of which the last `CAP` bytes are kept. -/
theorem trail_pairPushed {p q : Byte} {s : State} (hc : s.wc.toNat ≤ 0xFFFD) :
    trail (pairPushed p q s) = lastOf s.cfg.cap (trail s ++ [p, q]) := by
  have hwc : (push p s).wc.toNat = s.wc.toNat + 1 := by rw [push_wc, toNat_wc_add_one (by omega)]
  calc trail (pairPushed p q s) = trail (push q (push p s)) := rfl
    _ = lastOf s.cfg.cap (lastOf s.cfg.cap (trail s ++ [p]) ++ [q]) := by
      rw [trail_push q _ (by omega), trail_push p s (by omega), push_cfg]
    _ = lastOf s.cfg.cap (trail s ++ [p, q]) := by
      rw [lastOf_append_lastOf, List.append_assoc, List.singleton_append]

/-- A new pair writes nothing beyond the trail it leaves. -/
theorem pairPushed_read_beyond {p q : Byte} {s : State} (hcap : 0 < s.cfg.cap)
    (hc : s.wc.toNat ≤ 0xFFFD) (i : Nat) (hi : (trail (pairPushed p q s)).length ≤ i) :
    (pairPushed p q s).w.read i = s.w.read i := by
  have hwc : (push p s).wc.toNat = s.wc.toNat + 1 := by rw [push_wc, toNat_wc_add_one (by omega)]
  have hi : logicalLength (push q (push p s)) ≤ i := by rwa [length_trail] at hi
  have hle : logicalLength (push p s) ≤ logicalLength (push q (push p s)) := by
    rw [logicalLength_push q _ (by omega), logicalLength, push_cfg]
    omega
  calc (push q (push p s)).w.read i = (push p s).w.read i :=
        push_read_beyond q _ (by rwa [push_cfg]) (by omega) i hi
    _ = s.w.read i := push_read_beyond p s hcap (by omega) i (hle.trans hi)

/-- Two bytes at a fixed distance from the end of a list begin a suffix of it. -/
theorem pair_at_back_iff {p q : Byte} {l : List Byte} {k : Nat} :
    (k + 2 ≤ l.length ∧ l[l.length - (k + 2)]? = some p ∧ l[l.length - (k + 2) + 1]? = some q) ↔
      ∃ tl : List Byte, tl.length = k ∧ p :: q :: tl <:+ l := by
  constructor
  · rintro ⟨hlen, hp, hq⟩
    obtain ⟨h1, rfl⟩ := List.getElem?_eq_some_iff.mp hp
    obtain ⟨h2, rfl⟩ := List.getElem?_eq_some_iff.mp hq
    refine ⟨l.drop (l.length - (k + 2) + 1 + 1), by rw [List.length_drop]; omega, ?_⟩
    rw [← List.drop_eq_getElem_cons h2, ← List.drop_eq_getElem_cons h1]
    exact List.drop_suffix _ _
  · rintro ⟨tl, rfl, init, rfl⟩
    simp

/-- The duplicate test speaks of the last two pairs of the trail (R226). -/
theorem isDuplicate_iff {p q : Byte} {s : State} :
    isDuplicate p q s = true ↔ amongLastTwoPairs p q (trail s) := by
  rw [isDuplicate, Bool.or_eq_true, pairAt_iff 2 p q s (by omega), pairAt_iff 4 p q s (by omega),
    pair_at_back_iff (k := 0), pair_at_back_iff (k := 2), amongLastTwoPairs]
  simp [List.length_eq_two, List.length_eq_zero_iff]

section PairPush

variable {p q : Byte} {s : State} {f : State → Word}

theorem pushPair_of_odd (h : s.wc.toNat % 2 = 1) : pushPair p q f s = .next (s.faulted .tcParity) :=
  if_pos (decide_eq_true h)

/-- The checks of the pair push after the parity one (R226). -/
theorem pushPair_of_even (h : s.wc.toNat % 2 = 0) : pushPair p q f s =
    if isDuplicate p q s then respond (f { s with dup := 1#1 }) { s with dup := 1#1 }
    else if 0xFFFD < s.wc.toNat then .next (s.faulted .tcCountOverflow)
    else respond (f (pairPushed p q s)) (pairPushed p q s) := by
  simp [pushPair, oddCount, h, pairPushed, raise]

theorem pushPair_of_duplicate (h : s.wc.toNat % 2 = 0) (hd : amongLastTwoPairs p q (trail s)) :
    pushPair p q f s = .next
      (({ s with dup := 1#1 } : State).answered (responseWord 0#8 (f { s with dup := 1#1 }))) := by
  rw [pushPair_of_even h, if_pos (isDuplicate_iff.mpr hd), respond_eq]

theorem pushPair_of_overflow (h : s.wc.toNat % 2 = 0) (hd : ¬amongLastTwoPairs p q (trail s))
    (hc : 0xFFFD < s.wc.toNat) : pushPair p q f s = .next (s.faulted .tcCountOverflow) := by
  rw [pushPair_of_even h, if_neg (mt isDuplicate_iff.mp hd), if_pos hc]

theorem pushPair_of_new (h : s.wc.toNat % 2 = 0) (hd : ¬amongLastTwoPairs p q (trail s))
    (hc : s.wc.toNat ≤ 0xFFFD) : pushPair p q f s = .next
      ((pairPushed p q s).answered (responseWord 0#8 (f (pairPushed p q s)))) := by
  rw [pushPair_of_even h, if_neg (mt isDuplicate_iff.mp hd), if_neg (Nat.not_lt.mpr hc), respond_eq]

end PairPush

@[simp] theorem pairPushed_responses (p q : Byte) (s : State) :
    (pairPushed p q s).responses = s.responses := by simp [pairPushed]

/-- TC_PUSHPAIR and TC_RECORD of a new pair write the trail, `DUP` and the response only. -/
theorem answered_pairPushed_frame (p q : Byte) (s : State) (r : Word40) :
    (pairPushed p q s).answered r =
      { s with w := (pairPushed p q s).w, wc := (pairPushed p q s).wc, dup := 0#1,
               responses := s.responses ++ [r] } := by
  rw [State.answered, pairPushed_frame]

/-- What the pair push does with a new pair, for TC_PUSHPAIR and TC_RECORD alike (R226, R228); the
result field does not depend on the responses given. -/
theorem pushPair_records_new {p q : Byte} {f : State → Word} {s : State}
    (hf : ∀ r u, f (u.answered r) = f u) (hcap : 0 < s.cfg.cap) (heven : s.wc.toNat % 2 = 0)
    (hnew : ¬amongLastTwoPairs p q (trail s)) (hc : s.wc.toNat ≤ 0xFFFD) :
    ∃ t, pushPair p q f s = .next t ∧
      trail t = lastOf s.cfg.cap (trail s ++ [p, q]) ∧
      (∀ i, (trail t).length ≤ i → t.w.read i = s.w.read i) ∧
      t.wc.toNat = s.wc.toNat + 2 ∧ t.dup = 0#1 ∧
      t.responses = s.responses ++ [responseWord 0#8 (f t)] ∧
      t = { s with w := t.w, wc := t.wc, dup := t.dup, responses := t.responses } := by
  refine ⟨_, pushPair_of_new heven hnew hc, ?_, fun i hi => ?_, pairPushed_wc_toNat hc, rfl,
    ?_, ?_⟩
  · rw [trail_answered, trail_pairPushed hc]
  · rw [trail_answered] at hi
    rw [answered_w, pairPushed_read_beyond hcap hc i hi]
  · rw [answered_responses, pairPushed_responses, hf]
  · rw [answered_pairPushed_frame]

/-- Settles O43: the checks of the pair push in their order, and its effect on the trail. -/
theorem tcPushpairSuppressesDuplicates : Obligations.TcPushpairSuppressesDuplicates := by
  intro p q s hwf
  refine ⟨pushPair_of_odd, pushPair_of_duplicate, pushPair_of_overflow, fun heven hnew hc => ?_⟩
  obtain ⟨t, hexec, htrail, hbeyond, hwc, hdup, hresp, hframe⟩ :=
    pushPair_records_new (f := countResult) (fun _ _ => rfl) (cap_pos_of_wf hwf) heven hnew hc
  rw [countResult_eq_ofNat hwc] at hresp
  exact ⟨t, hexec, htrail, hbeyond, hwc, hdup, hresp, hframe⟩

/-- The pair just recorded is the last one of the trail. -/
theorem among_lastOf_append_pair {p q : Byte} {n : Nat} (hn : 2 ≤ n) (l : List Byte) :
    amongLastTwoPairs p q (lastOf n (l ++ [p, q])) := by
  have hlen : (l ++ [p, q]).length = l.length + 2 := List.length_append
  rw [lastOf, List.drop_append_of_le_length (by omega)]
  exact .inl (List.suffix_append _ _)

/-- Settles O44: after the first push the pair ends the trail, and the second one finds it there. -/
theorem samePairTwiceIsRecordedOnce : Obligations.SamePairTwiceIsRecordedOnce := by
  intro p q s hwf heven hnew hc
  obtain ⟨t, hexec, htrail, -, hwc, hdup, -, -⟩ :=
    pushPair_records_new (f := countResult) (fun _ _ => rfl) (cap_pos_of_wf hwf) heven hnew hc
  have hlast : amongLastTwoPairs p q (trail t) := by
    rw [htrail]
    exact among_lastOf_append_pair (two_le_cap_of_wf hwf) _
  exact ⟨t, _, hexec, pushPair_of_duplicate (by omega) hlast, hwc, hdup, rfl, rfl, rfl⟩

/-! ### The quantised pair -/

theorem coordInRange_iff {lat lon : Int} :
    coordInRange lat lon = true ↔ -9000 ≤ lat ∧ lat ≤ 9000 ∧ -18000 ≤ lon ∧ lon ≤ 18000 := by
  simp [coordInRange, and_assoc]

theorem exec_tcRecord_of_outOfRange {lat lon : Int} {s : State}
    (h : lat < -9000 ∨ 9000 < lat ∨ lon < -18000 ∨ 18000 < lon) :
    exec (.tcRecord lat lon) s = .next (s.faulted .tcCoordRange) :=
  if_neg (by rw [coordInRange_iff]; omega)

/-- Inside the range TC_RECORD is the pair push of the quantised pair (R228). -/
theorem exec_tcRecord_of_inRange {lat lon : Int} {s : State}
    (h : -9000 ≤ lat ∧ lat ≤ 9000 ∧ -18000 ≤ lon ∧ lon ≤ 18000) :
    exec (.tcRecord lat lon) s = pushPair (qLatByte lat) (qLonByte lon)
      (fun t => qLatByte lat ++ qLonByte lon ++ t.wc) s :=
  if_pos (coordInRange_iff.mpr h)

/-- Settles O45: the range check, then the clauses of the pair push on the quantised pair. -/
theorem tcRecordQuantisesAndPushes : Obligations.TcRecordQuantisesAndPushes := by
  rintro lat lon s _ _ hwf rfl rfl
  refine ⟨exec_tcRecord_of_outOfRange, fun hlat hlat' hlon hlon' => ?_⟩
  rw [exec_tcRecord_of_inRange ⟨hlat, hlat', hlon, hlon'⟩]
  exact ⟨pushPair_of_odd, pushPair_of_duplicate, pushPair_of_overflow, fun heven hnew hc =>
    pushPair_records_new (fun _ _ => rfl) (cap_pos_of_wf hwf) heven hnew hc⟩

/-- Rounding a quotient to the nearest integer, ties up, is adding half the divisor first. -/
theorem floor_div_add_half (x : Int) {d : Nat} (hd : d ≠ 0) :
    ⌊(x : ℚ) / (2 * d : Nat) + 1 / 2⌋ = (x + d) / (2 * d : Nat) := by
  have hsum : (x : ℚ) / (2 * d : Nat) + 1 / 2 = ((x + d : Int) : ℚ) / (2 * d : Nat) := by
    have : (d : ℚ) ≠ 0 := Nat.cast_ne_zero.mpr hd
    push_cast
    field_simp
  rw [hsum, Rat.floor_intCast_div_natCast]

theorem toNat_ofInt_byte {z : Int} (h0 : 0 ≤ z) (h : z < 256) :
    ((BitVec.ofInt 8 z).toNat : Int) = z := by
  rw [BitVec.toNat_ofInt]
  omega

/-- Settles O46: the integer forms add half the divisor before an integer division. -/
theorem quantiserIsTheRoundedFormula : Obligations.QuantiserIsTheRoundedFormula := by
  constructor
  · intro lat hlo hhi
    have hround : ⌊((lat : ℚ) + 9000) / 200 + 1 / 2⌋ = (lat + 9000 + 100) / 200 := by
      exact_mod_cast floor_div_add_half (lat + 9000) (d := 100) (by decide)
    have hq : qLat lat = (lat + 9100) / 200 + 33 := rfl
    have hmin : 33 ≤ qLat lat := by omega
    have hmax : qLat lat ≤ 123 := by omega
    exact ⟨by omega, hmin, hmax, toNat_ofInt_byte (by omega) (by omega)⟩
  · intro lon hlo hhi
    have hround : ⌊((lon : ℚ) + 18000) / 400 + 1 / 2⌋ = (lon + 18000 + 200) / 400 := by
      exact_mod_cast floor_div_add_half (lon + 18000) (d := 200) (by decide)
    have hq : qLon lon = (lon + 18200) / 400 + 33 := rfl
    have hmin : 33 ≤ qLon lon := by omega
    have hmax : qLon lon ≤ 123 := by omega
    exact ⟨by omega, hmin, hmax, toNat_ofInt_byte (by omega) (by omega)⟩

/-! ### The export -/

section Export

variable {a : Half} {s : State}

theorem exec_tcExport_of_odd (h : s.wc.toNat % 2 = 1) :
    exec (.tcExport a) s = .next (s.faulted .tcParity) := if_pos (decide_eq_true h)

/-- The checks of TC_EXPORT after the parity one (R231). -/
theorem exec_tcExport_of_even (h : s.wc.toNat % 2 = 0) : exec (.tcExport a) s =
    if 8189 < s.wc.toNat / 2 then .next (s.faulted .tcTrailerRange)
    else if a.toNat + logicalLength s + 3 ≤ s.cfg.pbufSize then
      .next (({ s with pbuf := s.pbuf.writeRun a.toNat (exportBytes s) } : State).answered
        (responseWord 0#8 (BitVec.ofNat 32 (logicalLength s + 3))))
    else .next (s.faulted .pbufRange) := by
  simp [exec, execTcExport, oddCount, h, pbufRunInRange, raise, respond, Nat.add_assoc]

theorem exec_tcExport_of_trailerRange (h : s.wc.toNat % 2 = 0) (ht : 8189 < s.wc.toNat / 2) :
    exec (.tcExport a) s = .next (s.faulted .tcTrailerRange) := by
  rw [exec_tcExport_of_even h, if_pos ht]

theorem exec_tcExport_of_outOfRange (h : s.wc.toNat % 2 = 0) (ht : s.wc.toNat / 2 ≤ 8189)
    (ha : s.cfg.pbufSize < a.toNat + logicalLength s + 3) :
    exec (.tcExport a) s = .next (s.faulted .pbufRange) := by
  rw [exec_tcExport_of_even h, if_neg (Nat.not_lt.mpr ht), if_neg (Nat.not_le.mpr ha)]

theorem exec_tcExport_of_inRange (h : s.wc.toNat % 2 = 0) (ht : s.wc.toNat / 2 ≤ 8189)
    (ha : a.toNat + logicalLength s + 3 ≤ s.cfg.pbufSize) : exec (.tcExport a) s =
      .next (({ s with pbuf := s.pbuf.writeRun a.toNat (exportBytes s) } : State).answered
        (responseWord 0#8 (BitVec.ofNat 32 (logicalLength s + 3)))) := by
  rw [exec_tcExport_of_even h, if_neg (Nat.not_lt.mpr ht), if_pos ha]

end Export

/-- A read inside a written run. -/
theorem read_writeRun_add {m : Memory} {vs : List Byte} {j : Nat} (a : Nat) (hj : j < vs.length) :
    (m.writeRun a vs).read (a + j) = vs.getD j Memory.unlisted := by
  rw [Memory.read_writeRun, if_pos (by omega), Nat.add_sub_cancel_left]

/-- A read outside a written run. -/
theorem read_writeRun_outside {m : Memory} {vs : List Byte} {a x : Nat}
    (hx : x < a ∨ a + vs.length ≤ x) : (m.writeRun a vs).read x = m.read x := by
  rw [Memory.read_writeRun, if_neg (by omega)]

theorem exportBytes_getD_of_lt {s : State} {i : Nat} (h : i < logicalLength s) (d : Byte) :
    (exportBytes s).getD i d = s.w.read i := by
  rw [exportBytes, List.getD_append _ _ _ _ (by simpa using h), Memory.getD_readRun _ _ _ _ _ h,
    Nat.zero_add]

theorem exportBytes_getD_trailer (s : State) (k : Nat) (d : Byte) :
    (exportBytes s).getD (logicalLength s + k) d = (trailer s.cfg s.wc.toNat).getD k d := by
  rw [exportBytes, List.getD_append_right _ _ _ _ (by simp), Memory.length_readRun,
    Nat.add_sub_cancel_left]

/-- Byte `k` of the trailer stands behind the trail. -/
theorem read_export_trailer (m : Memory) (a : Nat) (s : State) {k : Nat} (hk : k < 3) :
    (m.writeRun a (exportBytes s)).read (a + logicalLength s + k) =
      (trailer s.cfg s.wc.toNat).getD k Memory.unlisted := by
  rw [Nat.add_assoc, read_writeRun_add a (by simpa using hk), exportBytes_getD_trailer]

theorem trailerDigit_toNat {n : Nat} (h : n ≤ 90) : (trailerDigit n).toNat = n + 33 :=
  Nat.mod_eq_of_lt (by simp only [quantOffset]; omega)

/-- Settles O48: the three checks in their order; then one run of bytes is written, the trail and
behind it the three bytes of the trailer, whose digits are at most 90. -/
theorem tcExportWritesTrailAndTrailer : Obligations.TcExportWritesTrailAndTrailer := by
  rintro a s _ _ - rfl rfl
  refine ⟨exec_tcExport_of_odd, exec_tcExport_of_trailerRange, exec_tcExport_of_outOfRange,
    fun heven ht ha => ?_⟩
  have hhigh : s.wc.toNat / 2 / 90 ≤ 90 := by omega
  have hlow : s.wc.toNat / 2 % 90 ≤ 90 := by omega
  refine ⟨_, exec_tcExport_of_inRange heven ht ha, fun i hi => ?_,
    read_export_trailer s.pbuf a.toNat s (k := 0) (by decide), ?_, ?_, by omega, by omega,
    fun x hx => read_writeRun_outside ?_, rfl, rfl⟩
  · have hlen : i < (exportBytes s).length := by
      rw [length_exportBytes]
      exact Nat.lt_add_right 3 hi
    exact (read_writeRun_add a.toNat hlen).trans (exportBytes_getD_of_lt hi _)
  · exact (congrArg _ (read_export_trailer s.pbuf a.toNat s (k := 1) (by decide))).trans
      (trailerDigit_toNat hhigh)
  · exact (congrArg _ (read_export_trailer s.pbuf a.toNat s (k := 2) (by decide))).trans
      (trailerDigit_toNat hlow)
  · rwa [length_exportBytes]

end Sys2Proof.Machine
end

section
/-! SUPPORT. The system commands (spec/46_system_commands.md): NOP, the register map read and
written, and one byte of PBUF written and read. -/

namespace Sys2Proof.Machine

variable {n v : Byte} {a : Half} {s : State}

/-- Settles O49: NOP does nothing but respond. -/
theorem nopOnlyResponds : Obligations.NopOnlyResponds := fun _ => rfl

/-! ### The register map -/

theorem exec_rdreg_of_some {r : Word} (h : readReg n s = some r) :
    exec (.rdreg n) s = .next (s.answered (responseWord 0#8 r)) := by
  simp only [exec, execRdreg, h, respond_eq]

theorem exec_rdreg_of_none (h : readReg n s = none) :
    exec (.rdreg n) s = .next (s.faulted .regAccess) := by
  simp only [exec, execRdreg, h, raise_eq]

theorem exec_wrreg_of_some {u : State} (h : writeReg n v s = some u) :
    exec (.wrreg n v) s = .next (u.answered (responseWord 0#8 0#32)) := by
  simp only [exec, execWrreg, h, respond_eq]

theorem exec_wrreg_of_none (h : writeReg n v s = none) :
    exec (.wrreg n v) s = .next (s.faulted .regAccess) := by
  simp only [exec, execWrreg, h, raise_eq]

/-- Register 0x08 as a number: `FULL` at bit 1, `DUP` at bit 0 (R30). -/
theorem statusWord_eq_ofNat (s : State) : statusWord s =
    BitVec.ofNat 32 (2 * (if s.cfg.cap ≤ s.wc.toNat then 1 else 0) + s.dup.toNat) := by
  obtain hdup | hdup := BitVec.eq_zero_or_eq_one s.dup <;>
    by_cases hfull : s.cfg.cap ≤ s.wc.toNat <;> simp [statusWord, statusFull, hdup, hfull]

theorem readReg_eq_none (h : 0x0D < n.toNat) : readReg n s = none := by
  rw [← Option.not_isSome_iff_eq_none, readReg_isSome, decide_eq_true_eq]
  exact Nat.not_le.mpr h

/-- Settles O50: register by register; FREQ, STATUS and the two parameters are 32 bits wide already,
the others are zero-extended. -/
theorem rdregReadsTheRegisterMap : Obligations.RdregReadsTheRegisterMap := by
  refine fun s => ⟨fun n x hmem => exec_rdreg_of_some ?_, fun n hn =>
    exec_rdreg_of_none (readReg_eq_none hn)⟩
  simp only [List.mem_cons, Prod.mk.injEq, List.not_mem_nil, or_false] at hmem
  obtain ⟨rfl, rfl⟩ | ⟨rfl, rfl⟩ | ⟨rfl, rfl⟩ | ⟨rfl, rfl⟩ | ⟨rfl, rfl⟩ | ⟨rfl, rfl⟩ | ⟨rfl, rfl⟩ |
    ⟨rfl, rfl⟩ | ⟨rfl, rfl⟩ | ⟨rfl, rfl⟩ | ⟨rfl, rfl⟩ | ⟨rfl, rfl⟩ | ⟨rfl, rfl⟩ | ⟨rfl, rfl⟩ := hmem <;>
    simp [readReg, statusWord_eq_ofNat]

theorem writeReg_strat (h : v.toNat ≤ 1) :
    writeReg 0x04#8 v s = some { s with strat := BitVec.ofNat 1 v.toNat } := if_pos h

theorem writeReg_lsbHi : writeReg 0x05#8 v s = some { s with lsbHi := v } := rfl

theorem writeReg_lsbLo : writeReg 0x06#8 v s = some { s with lsbLo := v } := rfl

/-- A number that is no control register, and a `STRAT` value above 1, are refused (R253). -/
theorem writeReg_eq_none
    (h : (n = 0x04#8 ∧ 1 < v.toNat) ∨ (n ≠ 0x04#8 ∧ n ≠ 0x05#8 ∧ n ≠ 0x06#8)) :
    writeReg n v s = none := by
  refine Option.eq_none_iff_forall_ne_some.mpr fun t ht => ?_
  obtain ⟨hn, hv, -⟩ | ⟨hn, -⟩ | ⟨hn, -⟩ := writeReg_cases n v s t ht
  · bv_omega
  · bv_omega
  · bv_omega

/-- Settles O51: each control register, then what the register map refuses. -/
theorem wrregWritesControlRegisters : Obligations.WrregWritesControlRegisters := by
  refine fun n v s => ⟨?_, ?_, ?_, fun h => exec_wrreg_of_none (writeReg_eq_none h)⟩
  · rintro rfl hv
    exact exec_wrreg_of_some (writeReg_strat hv)
  · rintro rfl
    exact exec_wrreg_of_some writeReg_lsbHi
  · rintro rfl
    exact exec_wrreg_of_some writeReg_lsbLo

/-! ### One byte of PBUF -/

theorem pbufByteInRange_iff {cfg : Config} {x : Nat} :
    pbufByteInRange cfg x = true ↔ x < cfg.pbufSize := decide_eq_true_iff

theorem exec_wrbuf_of_outOfRange (h : s.cfg.pbufSize ≤ a.toNat) :
    exec (.wrbuf a v) s = .next (s.faulted .pbufRange) :=
  if_neg (mt pbufByteInRange_iff.mp (Nat.not_lt.mpr h))

theorem exec_wrbuf_of_inRange (h : a.toNat < s.cfg.pbufSize) :
    exec (.wrbuf a v) s = .next
      (({ s with pbuf := s.pbuf.write a.toNat v } : State).answered (responseWord 0#8 0#32)) :=
  if_pos (pbufByteInRange_iff.mpr h)

theorem exec_rdbuf_of_outOfRange (h : s.cfg.pbufSize ≤ a.toNat) :
    exec (.rdbuf a) s = .next (s.faulted .pbufRange) :=
  if_neg (mt pbufByteInRange_iff.mp (Nat.not_lt.mpr h))

/-- A byte in range is answered zero-extended (R255). -/
theorem exec_rdbuf_of_inRange (h : a.toNat < s.cfg.pbufSize) :
    exec (.rdbuf a) s = .next
      (s.answered (responseWord 0#8 (BitVec.ofNat 32 (s.pbuf.read a.toNat).toNat))) := by
  rw [BitVec.ofNat_toNat]
  exact if_pos (pbufByteInRange_iff.mpr h)

/-- Settles O52: the range check decides between the fault and the byte written, and the array keeps
every other byte. -/
theorem wrbufWritesOneByte : Obligations.WrbufWritesOneByte := by
  refine fun a v s => ⟨exec_wrbuf_of_outOfRange, fun ha => ⟨_, exec_wrbuf_of_inRange ha, ?_, ?_,
    rfl, rfl⟩⟩
  · exact Memory.read_write_same _ _ _
  · exact fun x hx => Memory.read_write_other _ _ _ _ hx

/-- Settles O53: the range check decides between the fault and the byte read. -/
theorem rdbufReadsOneByte : Obligations.RdbufReadsOneByte :=
  fun _ _ => ⟨exec_rdbuf_of_outOfRange, exec_rdbuf_of_inRange⟩

end Sys2Proof.Machine
end

section
/-! SUPPORT. Every command and every step answers a next state (spec/46 R258, spec/60 R275): every
meaning is made of checks, and behind each of them stands a fault or a response. -/

namespace Sys2Proof.Machine

/-- A check answers a next state when both its branches do. -/
theorem answers_ite {P : Prop} [Decidable P] {x y : Result} (hx : ∃ t, x = .next t)
    (hy : ∃ t, y = .next t) : ∃ t, (if P then x else y) = .next t := by
  split
  · exact hx
  · exact hy

theorem pushPair_answers (p q : Byte) (f : State → Word) (s : State) :
    ∃ t, pushPair p q f s = .next t :=
  answers_ite ⟨_, rfl⟩ (answers_ite ⟨_, rfl⟩ (answers_ite ⟨_, rfl⟩ ⟨_, rfl⟩))

/-- Every command answers a next state: those without a check, those with one, the pair pushes, the
export with its three checks, and the register commands by what the register map answers. -/
theorem exec_answers (i : Instr) (s : State) : ∃ t, exec i s = .next t := by
  cases i with
  | nop | crcReset | emitByte | emitFlag | emitCrc | tmMark | tmSpace | gsClassify | tcGet
  | tcStore => exact ⟨_, rfl⟩
  | emitString | tcPush | tcRead | wrbuf | rdbuf => exact answers_ite ⟨_, rfl⟩ ⟨_, rfl⟩
  | tcPushpair p q => exact pushPair_answers p q _ s
  | tcRecord lat lon => exact answers_ite (pushPair_answers _ _ _ s) ⟨_, rfl⟩
  | tcExport a =>
    exact answers_ite ⟨_, rfl⟩ (answers_ite ⟨_, rfl⟩ (answers_ite ⟨_, rfl⟩ ⟨_, rfl⟩))
  | rdreg n =>
    cases h : readReg n s with
    | none => exact ⟨_, exec_rdreg_of_none h⟩
    | some r => exact ⟨_, exec_rdreg_of_some h⟩
  | wrreg n v =>
    cases h : writeReg n v s with
    | none => exact ⟨_, exec_wrreg_of_none h⟩
    | some u => exact ⟨_, exec_wrreg_of_some h⟩

/-- A presented word answers a next state, be it a command or not (R96). -/
theorem runWord_answers (w : Word40) (s : State) : ∃ t, runWord w s = .next t := by
  cases h : decode w with
  | none => exact ⟨_, runWord_of_decode_eq_none h s⟩
  | some i => exact runWord_of_decode_eq_some h s ▸ exec_answers i s

/-- Idling, a command word and a reset each answer a next state. -/
theorem step_answers (s : State) : ∃ t, step s = .next t := by
  unfold step runNext
  split
  · exact ⟨_, rfl⟩
  · exact runWord_answers _ _
  · exact ⟨_, rfl⟩

/-- Settles O14: no command and no step ends the run. -/
theorem everyStepAnswersANextState : Obligations.EveryStepAnswersANextState :=
  ⟨exec_answers, step_answers⟩

end Sys2Proof.Machine
end

section
/-! SUPPORT. Faults (spec/60_exceptions.md): what a faulting command changes (R275), and the commands
that cannot fault (R273). -/

namespace Sys2Proof.Machine

variable {i : Instr} {s t : State}

/-- A presented word ends in a fault on the state it started in, or in some command's effect and a
response of status 0 (R96, R275). -/
theorem runWord_faulted_or_answered {w : Word40} (h : runWord w s = .next t) :
    (∃ c, t = s.faulted c) ∨ ∃ j u x, Effect s j u ∧ t = u.answered (responseWord 0#8 x) := by
  obtain ⟨-, rfl⟩ | ⟨j, -, he⟩ := runWord_cases h
  · exact .inl ⟨_, rfl⟩
  · cases he with
    | fault c => exact .inl ⟨c, rfl⟩
    | success x hu => exact .inr ⟨j, _, x, hu, rfl⟩

/-- Settles O17: a fault leaves the state `faulted`, which is the stated one; a command that
completes answers status 0, so it is not one that faulted. -/
theorem faultingCommandChangesNothingElse : Obligations.FaultingCommandChangesNothingElse := by
  intro w s t r h hr hs
  obtain ⟨c, rfl⟩ | ⟨j, u, x, hu, rfl⟩ := runWord_faulted_or_answered h
  · obtain rfl : responseWord c.code 0#32 = r := by simpa using hr
    exact ⟨c, rfl, rfl⟩
  · obtain rfl : responseWord 0#8 x = r := by simpa [hu.responses_eq] using hr
    exact absurd (statusOf_responseWord _ _) hs

/-- A command without checks responds from its effect, in every state (R273). -/
theorem exec_eq_respond_of_cannotFault (hi : cannotFault i = true) (s : State) :
    ∃ u x, Effect s i u ∧ exec i s = respond x u := by
  cases i with
  | nop => exact ⟨_, _, .nop, rfl⟩
  | crcReset => exact ⟨_, _, .crcReset, rfl⟩
  | emitByte v f => exact ⟨_, _, .emitByte, rfl⟩
  | emitFlag c => exact ⟨_, _, .emitFlag, rfl⟩
  | emitCrc => exact ⟨_, _, .emitCrc, rfl⟩
  | tmMark => exact ⟨_, _, .tmMark, rfl⟩
  | tmSpace => exact ⟨_, _, .tmSpace, rfl⟩
  | gsClassify lat lon => exact ⟨_, _, .gsClassify, rfl⟩
  | tcGet => exact ⟨_, _, .tcGet, rfl⟩
  | tcStore => exact ⟨_, _, .tcStore, rfl⟩
  | emitString | tcPush | tcPushpair | tcRecord | tcRead | tcExport | rdreg | wrreg | wrbuf
  | rdbuf => cases hi

/-- Settles O18: the response carries status 0, and no effect touches `FAULT`. -/
theorem commandsWithoutChecksSucceed : Obligations.CommandsWithoutChecksSucceed := by
  intro i s hi
  obtain ⟨u, x, hu, hexec⟩ := exec_eq_respond_of_cannotFault hi s
  refine ⟨u.answered (responseWord 0#8 x), responseWord 0#8 x, hexec, ?_,
    statusOf_responseWord _ _, hu.fault_eq⟩
  rw [answered_responses, hu.responses_eq]

end Sys2Proof.Machine
end

section
/-! SUPPORT. Reset and launch (spec/70_reset_and_hazards.md R300 to R303), and the idle block
(R310). -/

namespace Sys2Proof.Machine

/-! ### Idling and reset -/

/-- Settles O7: `runNext` answers the state itself on an empty input. -/
theorem stepIdlesWithoutInput : Obligations.StepIdlesWithoutInput := by
  intro s h
  simp only [step, runNext, h]

/-- A step with a reset presented takes the reset from the input and resets the block (R300). -/
theorem step_of_pending_reset {s : State} {u : Unspecified} {rest : List HostEvent}
    (h : s.pending = .reset u :: rest) :
    step s = .next (resetBlock u { s with pending := rest }) := by
  simp only [step, runNext, h]

/-- Settles O9: the step is `resetBlock`, whose record gives every field but the bytes of the two
arrays it fills. -/
theorem resetEventGivesResetValues : Obligations.ResetEventGivesResetValues := by
  intro s u rest h
  refine ⟨_, step_of_pending_reset h, rfl, rfl, rfl, rfl, rfl, rfl, rfl, rfl, rfl, rfl, rfl, rfl,
    rfl, rfl, fun i hi => ?w, fun i hi => ?pbuf, rfl, rfl, rfl, rfl⟩
  case w => exact Memory.read_arrayOf _ _ _ hi
  case pbuf => exact Memory.read_arrayOf _ _ _ hi

/-! ### Launch -/

/-- `STATUS.FULL` is set exactly when the count has reached the capacity (R30). -/
theorem statusFull_eq_one_iff {s : State} : statusFull s = 1#1 ↔ s.cfg.cap ≤ s.wc.toNat := by
  by_cases h : s.cfg.cap ≤ s.wc.toNat <;> simp [statusFull, h]

/-- Settles O10: `State.launch` is a reset of the empty machine with the persistent store filled, so
only `FULL` and the bytes of the three arrays ask for more than its record. -/
theorem launchStateHasResetValues : Obligations.LaunchStateHasResetValues := by
  rintro cfg u nvb nvc s rfl
  refine ⟨rfl, rfl, rfl, rfl, rfl, rfl, rfl, rfl, rfl, rfl, rfl, rfl, rfl, ?full, fun i hi => ?w,
    fun i hi => ?pbuf, fun i hi => ?nvb, rfl, rfl, rfl⟩
  case full => exact statusFull_eq_one_iff
  case w => exact Memory.read_arrayOf _ _ _ hi
  case pbuf => exact Memory.read_arrayOf _ _ _ hi
  case nvb => exact Memory.read_arrayOf _ _ _ hi

/-- The machine a launch resets meets the invariant: its working arrays and its traces are empty,
and its persistent store is filled within its size. -/
theorem inv_reset_with_store {cfg : Config} (h : cfg.wf = true) (nvb : List Byte) (nvc : Half) :
    Inv { State.reset with cfg := cfg, nvb := arrayOf cfg.cap nvb, nvc := nvc } where
  cfgWf := h
  wWf := ⟨rfl, rfl⟩
  pbufWf := ⟨rfl, rfl⟩
  nvbWf := ⟨Memory.wf_arrayOf _ _, Memory.within_arrayOf _ _⟩
  onesLe := Nat.zero_le 4
  lineLow := rfl
  symbols := rfl
  statuses := fun _ hr => nomatch hr
  faultReported := fun _ hd => absurd BitVec.zero_and hd
  freqKnown := .inl rfl

/-- Settles O12: a launch resets a machine that meets the invariant, and a reset keeps it. -/
theorem invAtEveryLaunch : Obligations.InvAtEveryLaunch :=
  fun _ u nvb nvc h => inv_resetBlock u (inv_reset_with_store h nvb nvc)

/-- Settles O11: `State.reset` is the launch state of the sample configuration, which is legal,
with zeros. -/
theorem invAtReset : Obligations.InvAtReset := by
  unfold Obligations.InvAtReset
  rw [reset_eq_launch]
  exact invAtEveryLaunch _ _ _ _ (by decide)

end Sys2Proof.Machine
end
